-- ==== Sys2Proof/Word.lean ====
section
/-! DEFINITION. The word types of the CE (00_scope R5: host words of 32 bits, sensor data and addresses of 8 bits). -/

namespace Sys2Proof

/-- A 32-bit host word: a command word, a result, a 32-bit datapath value (R5). -/
abbrev Word := BitVec 32

/-- A 64-bit value of the pressure datapath (R5). -/
abbrev DWord := BitVec 64

/-- One sensor register's data, or a sensor register address (R5, R43). -/
abbrev Byte := BitVec 8

end Sys2Proof
end

