-- ==== Sys2Proof/Syntax.lean ====
section
/-! DEFINITION. The commands of the CE, one constructor per row of the opcode table (30_encoding R67).
Operands are the 8-bit fields A and B as numbers (R68: unsigned, zero-extended wherever they are used). A field a command
ignores (R66) is no operand of its constructor. -/

namespace Sys2Proof

/-- The twelve commands (R67). -/
inductive Instr where
  /-- BEGIN (R70). -/
  | begin
  /-- RESET (R104). -/
  | reset
  /-- MODE.GET (R78). -/
  | modeGet
  /-- MODE.SET; `a` is the mode operand, of which A[1:0] is used (R79). -/
  | modeSet (a : Nat)
  /-- OSR.SET; `a` is the sensor, `b` the level (R80). -/
  | osrSet (a b : Nat)
  /-- OSR.GET; `a` is the sensor, `b` the actual flag (R81). -/
  | osrGet (a b : Nat)
  /-- IIR.GET (R82). -/
  | iirGet
  /-- IIR.SET; `a` is the code operand, of which A[2:0] is used (R83). -/
  | iirSet (a : Nat)
  /-- TSB.GET (R84). -/
  | tsbGet
  /-- TSB.SET; `a` is the code operand, of which A[2:0] is used (R85). -/
  | tsbSet (a : Nat)
  /-- MTIME; `a` is sel (R99). -/
  | mtime (a : Nat)
  /-- READ (R86). -/
  | read
deriving DecidableEq, Repr

end Sys2Proof
end

