-- ==== Sys2Proof/WellFormed.lean ====
section
/-! DEFINITION. When a term of Instr is a command: each operand fits its 8-bit field (30_encoding R65, R68).
`inRange` is the "legal range" column of R68, which decides an outcome (or a masking), not whether a word is a command. -/

namespace Sys2Proof

/-- The operand fits an 8-bit field of the command word (R65). -/
abbrev FitsField (x : Nat) : Prop := x < 256

/-- The command can be written as a command word: every operand fits its field (R65, R68). -/
abbrev Instr.wf : Instr → Prop
  | .begin | .reset | .modeGet | .iirGet | .tsbGet | .read => True
  | .modeSet a => FitsField a
  | .osrSet a b => FitsField a ∧ FitsField b
  | .osrGet a b => FitsField a ∧ FitsField b
  | .iirSet a => FitsField a
  | .tsbSet a => FitsField a
  | .mtime a => FitsField a

/-- The "legal range" column of R68. A command outside it still runs: its operand is masked, or it ends FAIL_INVALID. -/
abbrev Instr.inRange : Instr → Prop
  | .begin | .reset | .modeGet | .iirGet | .tsbGet | .read => True
  | .modeSet a => a ≤ 3
  | .osrSet a b => a ≤ 2 ∧ b ≤ 5
  | .osrGet a b => a ≤ 2 ∧ FitsField b
  | .iirSet a => a ≤ 7
  | .tsbSet a => a ≤ 7
  | .mtime a => FitsField a

end Sys2Proof
end

