-- ==== Sys2Proof/Decode.lean ====
section
/-! DEFINITION. The decoder of command words and the encoder (30_encoding R65-R68, opcode_table.json).
The decoder is total on 32-bit words; a word that encodes no command is rejected with its reason (R66). -/

namespace Sys2Proof

/-- Why a word is illegal (R66). Both reasons end in the same outcome, ILLEGAL. -/
inductive Reject where
  /-- Bits 23:16 are not 0. -/
  | reservedBits
  /-- OP is not one of the twelve opcodes of R67. -/
  | undefinedOpcode
deriving DecidableEq, Repr

/-- What the decoder answers. -/
inductive Decoded where
  | command (i : Instr)
  | rejected (r : Reject)
deriving DecidableEq, Repr

/-- OP, bits 31:24 (R65). -/
def opField (w : Word) : Nat := (w.extractLsb' 24 8).toNat
/-- RSV, bits 23:16 (R65). -/
def rsvField (w : Word) : Nat := (w.extractLsb' 16 8).toNat
/-- A, bits 15:8 (R65). -/
def aField (w : Word) : Nat := (w.extractLsb' 8 8).toNat
/-- B, bits 7:0 (R65). -/
def bField (w : Word) : Nat := (w.extractLsb' 0 8).toNat

/-- The opcode map of R67, applied to the fields. -/
def decodeOp (op a b : Nat) : Decoded :=
  match op with
  | 0x01 => .command .begin
  | 0x02 => .command .reset
  | 0x03 => .command .modeGet
  | 0x04 => .command (.modeSet a)
  | 0x05 => .command (.osrSet a b)
  | 0x06 => .command (.osrGet a b)
  | 0x07 => .command .iirGet
  | 0x08 => .command (.iirSet a)
  | 0x09 => .command .tsbGet
  | 0x0A => .command (.tsbSet a)
  | 0x0B => .command (.mtime a)
  | 0x0C => .command .read
  | _ => .rejected .undefinedOpcode

/-- The decoder (R66): RSV must be 0, then OP decides. -/
def decode (w : Word) : Decoded :=
  if rsvField w = 0 then decodeOp (opField w) (aField w) (bField w) else .rejected .reservedBits

/-- The instruction the decoder reads from the low `nbits` bits of `w`, bits numbered as spec/opcode_table.json numbers
them (bit 0 the least significant bit of the 32-bit word); the bits above are 0. -/
def decodeTableWord (nbits w : Nat) : Option Instr :=
  match decode (BitVec.ofNat 32 (w % 2 ^ nbits)) with
  | .command i => some i
  | .rejected _ => none

/-- OP of each command (R67). -/
def opcode : Instr → Nat
  | .begin => 0x01
  | .reset => 0x02
  | .modeGet => 0x03
  | .modeSet _ => 0x04
  | .osrSet _ _ => 0x05
  | .osrGet _ _ => 0x06
  | .iirGet => 0x07
  | .iirSet _ => 0x08
  | .tsbGet => 0x09
  | .tsbSet _ => 0x0A
  | .mtime _ => 0x0B
  | .read => 0x0C

/-- Field A of each command; 0 where the command ignores it (R69: unused operands 0). -/
def operandA : Instr → Nat
  | .begin | .reset | .modeGet | .iirGet | .tsbGet | .read => 0
  | .modeSet a => a
  | .osrSet a _ => a
  | .osrGet a _ => a
  | .iirSet a => a
  | .tsbSet a => a
  | .mtime a => a

/-- Field B of each command; 0 where the command ignores it (R69). -/
def operandB : Instr → Nat
  | .begin | .reset | .modeGet | .iirGet | .tsbGet | .read => 0
  | .modeSet _ => 0
  | .osrSet _ b => b
  | .osrGet _ b => b
  | .iirSet _ => 0
  | .tsbSet _ => 0
  | .mtime _ => 0

/-- The command word `OP << 24 | A << 8 | B`, RSV = 0 (R65, R69). -/
def encode (i : Instr) : Word :=
  BitVec.ofNat 8 (opcode i) ++ 0#8 ++ BitVec.ofNat 8 (operandA i) ++ BitVec.ofNat 8 (operandB i)

end Sys2Proof
end

