-- ==== Sys2Proof/Config.lean ====
section
/-! DEFINITION. The implementation parameters of 00_scope R5 and 20_memory R54.
"A model takes each one as an argument": they are plain data, State holds them in its field `cfg`, and no step changes
them (log entry 7). The defaults are those of R5, R39 and R101. -/

namespace Sys2Proof

/-- One timing constant set, in microseconds (R5, R101): per-sample time and the three overheads. -/
structure TimingSet where
  perSample : Nat
  overT     : Nat
  overP     : Nat
  overH     : Nat
deriving DecidableEq, Repr

/-- OVF_MODEL (R5; 93 U7): how a model treats an intermediate that leaves its width. -/
inductive OvfModel where
  /-- The hardware behaviour, and the default. -/
  | wrap
  /-- Stop with a fault; for claims about the Bosch reference only. -/
  | fault
deriving DecidableEq, Repr

/-- The parameters of R5 (and HOST_BASE of R54). -/
structure Config where
  /-- POLL_LIMIT: none is UNBOUNDED. -/
  pollLimit : Option Nat
  /-- T_SB_US, indexed by the 3-bit standby code. -/
  tSbUs     : Vector Nat 8
  /-- TIMING[typ]. -/
  typ       : TimingSet
  /-- TIMING[max]. -/
  max       : TimingSet
  /-- OVF_MODEL. -/
  ovf       : OvfModel
  /-- HOST_BASE: where the 256-byte host register space begins in the system's address map. -/
  hostBase  : Nat
deriving DecidableEq, Repr

/-- The defaults of R5, R39 and R101. HOST_BASE is OPEN in the spec; 0 is the model's (DESIGN CHOICE, log entry 8). -/
def Config.default : Config where
  pollLimit := none
  tSbUs     := #v[500, 62500, 125000, 250000, 500000, 1000000, 10000, 20000]
  typ       := { perSample := 2000, overT := 1000, overP := 500, overH := 500 }
  max       := { perSample := 2300, overT := 1250, overP := 575, overH := 575 }
  ovf       := .wrap
  hostBase  := 0

end Sys2Proof
end

