-- ==== Sys2Proof/Machine/State.lean ====
section
/-! DEFINITION. The state of the CE as plain data (10_state R10-R20, R40), the inputs it reads, the observation of a run
(20_memory R64), the reasons a step stops, and the state after power-on reset (R41, R126). -/

namespace Sys2Proof.Machine

/-- STATUS.CODE values (R19). Values 5-7 are reserved and never produced, so they have no name. -/
inductive Code where
  /-- 0: the command completed. -/
  | ok
  /-- 1: BEGIN or RESET found no device. -/
  | failNodev
  /-- 2: OSR.SET or OSR.GET operand out of range. -/
  | failInvalid
  /-- 3: the word encodes no command. -/
  | illegal
  /-- 4: READ's status polls reached a finite POLL_LIMIT. -/
  | timeout
deriving DecidableEq, Repr

/-- CAL, the calibration file: 18 coefficients with the widths of R11. -/
structure Cal where
  t1 : BitVec 16
  t2 : BitVec 16
  t3 : BitVec 16
  p1 : BitVec 16
  p2 : BitVec 16
  p3 : BitVec 16
  p4 : BitVec 16
  p5 : BitVec 16
  p6 : BitVec 16
  p7 : BitVec 16
  p8 : BitVec 16
  p9 : BitVec 16
  h1 : BitVec 8
  h2 : BitVec 16
  h3 : BitVec 8
  h4 : BitVec 16
  h5 : BitVec 16
  h6 : BitVec 8
deriving DecidableEq, Repr

/-- The power-on CAL: every entry 0 (R41). -/
def Cal.zero : Cal where
  t1 := 0
  t2 := 0
  t3 := 0
  p1 := 0
  p2 := 0
  p3 := 0
  p4 := 0
  p5 := 0
  p6 := 0
  p7 := 0
  p8 := 0
  p9 := 0
  h1 := 0
  h2 := 0
  h3 := 0
  h4 := 0
  h5 := 0
  h6 := 0

/-- The position reached in a command's sequence of sensor transactions, with the bytes read so far and READ's poll count
(R40). Each names the transaction that is to complete next. -/
inductive Pos where
  /-- The first transaction of the command's rule. -/
  | start
  /-- RESET, after the write of 0xE0: the identity read (R104). -/
  | identity
  /-- BEGIN, RESET: the read of 0x88 x24 (R70). -/
  | calTP
  /-- BEGIN, RESET: the read of 0xA1 x1; `c` are the 24 bytes read. -/
  | calH1 (c : List Byte)
  /-- BEGIN, RESET: the read of 0xE1 x7; `c` and `h1` are the bytes read. -/
  | calH (c h1 : List Byte)
  /-- A setter: the write of its register; `old` is the byte read (R9). -/
  | fieldWrite (old : Byte)
  /-- MTIME: the read of 0xF4; `f5` is the byte read (R99). -/
  | mtimeMeas (f5 : Byte)
  /-- MTIME: the read of 0xF2. -/
  | mtimeHum (f5 f4 : Byte)
  /-- READ's re-trigger: the read of 0xF4 of its field write (R88). -/
  | trigRead
  /-- READ's re-trigger: the write of 0xF4. -/
  | trigWrite (old : Byte)
  /-- READ: a status poll, after `n` polls that returned a busy bit (R89). -/
  | poll (n : Nat)
  /-- READ: the burst 0xF7 x8 (R86). -/
  | burst
deriving DecidableEq, Repr

/-- The sequencer (R16): IDLE, or BUSY with the hidden state of R40. STATUS.BUSY is 1 exactly when it is BUSY (R18). -/
inductive Sequencer where
  | idle
  | busy (i : Instr) (pos : Pos)
deriving DecidableEq, Repr

/-- What happens at the CE's edges, in order of time: which agent acts next and what it does (R4, R16, R52, R56, R126).
DESIGN CHOICE, log entry 1. -/
inductive Input where
  /-- The host writes `data` at system address `addr` with an access of `width` bits (R43, R44). -/
  | hostWrite (addr width : Nat) (data : Word)
  /-- The host reads at system address `addr` with an access of `width` bits. -/
  | hostRead (addr width : Nat)
  /-- The sensor port completes the transaction in progress: its status and, for a read, the bytes (R47, R52). -/
  | sensor (ack : Bool) (bytes : List Byte)
  /-- The CE's power-on reset is asserted (R126). -/
  | powerOn
deriving DecidableEq, Repr

/-- One event of the observation of a run (R64). -/
inductive Event where
  /-- A read transaction: address, count, bytes returned, and `ack` where it is consulted (R63). -/
  | read (addr : Byte) (count : Nat) (bytes : List Byte) (ack : Option Bool)
  /-- A write transaction of one byte. -/
  | write (addr : Byte) (value : Byte)
  /-- A finish, with the values of every host-visible register in the order of the map of R21. -/
  | finish (regs : List Word)
deriving DecidableEq, Repr

/-- The reasons a step stops. -/
inductive Fault where
  /-- Raised by `step`: BUSY, and no input ever comes. A sensor transaction never completes, or READ polls for ever: "a
  stuck state" (R62, R111). Safe (log entry 3). -/
  | hang
  /-- Raised by READ only when OVF_MODEL = fault: an intermediate leaves its width (R5, R98; 93 U7). Safe (log entry 12). -/
  | intermediateOverflow
deriving DecidableEq, Repr

/-- The reasons a step has no meaning. -/
inductive Refusal where
  /-- Raised by an arm of `exec` whose instruction has no meaning yet; no arm does. Safe. -/
  | notModelled (mnemonic : String)
deriving DecidableEq, Repr

/-- The state of the CE, its parameters (`cfg`) and the model's own fields (`inputs`, `history`, `replies`). -/
structure State where
  /-- The parameters of R5; no step changes them (log entry 7). -/
  cfg     : Config
  /-- CAL (R11). -/
  cal     : Cal
  /-- T_FINE (R13). -/
  tFine   : Word
  /-- TOUT (R14). -/
  tout    : Word
  /-- HOUT (R14). -/
  hout    : Word
  /-- POUT (R14). -/
  pout    : Word
  /-- SMODE, the stored mode (R15). -/
  smode   : BitVec 2
  /-- CMD (R17). -/
  cmd     : Word
  /-- STATUS.CODE (R18, R19). -/
  code    : Code
  /-- RES0 (R20). -/
  res0    : Word
  /-- RES1 (R20). -/
  res1    : Word
  /-- RES2 (R20). -/
  res2    : Word
  /-- The sequencer, and with it STATUS.BUSY (R16, R18) and the hidden state of R40. -/
  seq     : Sequencer
  /-- MODEL: what the agents around the engine do next, oldest first. -/
  inputs  : List Input
  /-- MODEL: the event history, oldest first (R64). -/
  history : List Event
  /-- MODEL: the words the host port answered to host reads, oldest first. -/
  replies : List Word
deriving DecidableEq, Repr

/-- What a meaning and a step answer. -/
abbrev Result := Host.Outcome State Fault Refusal

/-- The CE right after power-on reset (R41), with the default parameters of R5 and nothing yet at its edges. -/
def State.reset : State where
  cfg     := Config.default
  cal     := Cal.zero
  tFine   := 0
  tout    := 0
  hout    := 0
  pout    := 0
  smode   := 0
  cmd     := 0
  code    := .ok
  res0    := 0
  res1    := 0
  res2    := 0
  seq     := .idle
  inputs  := []
  history := []
  replies := []

end Sys2Proof.Machine
end

