-- ==== Sys2Proof/Machine/Flags.lean ====
section
/-! DEFINITION. The only flags the CE has: STATUS.BUSY and STATUS.CODE (10_state R18, R19, R26). -/

namespace Sys2Proof.Machine

/-- The 3-bit encoding of an outcome (R19). -/
def Code.bits : Code → BitVec 3
  | .ok => 0
  | .failNodev => 1
  | .failInvalid => 2
  | .illegal => 3
  | .timeout => 4

/-- STATUS.BUSY (R18): 1 from the accepted write of CMD until finish. -/
def State.busy (s : State) : Bool :=
  match s.seq with
  | .idle => false
  | .busy _ _ => true

/-- The STATUS word (R18): bits 31:4 read 0, bits 3:1 CODE, bit 0 BUSY. -/
def statusWord (s : State) : Word := 0#28 ++ s.code.bits ++ BitVec.ofBool s.busy

end Sys2Proof.Machine
end

