-- ==== Sys2Proof/Machine/Operands.lean ====
section
/-! DEFINITION. The operand forms of the commands (30_encoding R68), the field mux (41_config_mux R75) and the code tables
the CE interprets (10_state R36, R37). -/

namespace Sys2Proof.Machine

/-- A field of a sensor register: the triple (register, shift, width) of R9. -/
structure Field where
  reg : Byte
  sh  : Nat
  w   : Nat
deriving DecidableEq, Repr

/-- ctrl_meas bits 7:5 (R75). -/
def osrsT : Field := { reg := 0xF4, sh := 5, w := 3 }
/-- ctrl_hum bits 2:0 (R75). -/
def osrsH : Field := { reg := 0xF2, sh := 0, w := 3 }
/-- ctrl_meas bits 4:2 (R75). -/
def osrsP : Field := { reg := 0xF4, sh := 2, w := 3 }
/-- ctrl_meas bits 1:0 (R75). -/
def modeField : Field := { reg := 0xF4, sh := 0, w := 2 }
/-- config bits 4:2 (R75). -/
def filterField : Field := { reg := 0xF5, sh := 2, w := 3 }
/-- config bits 7:5 (R75). -/
def tsbField : Field := { reg := 0xF5, sh := 5, w := 3 }

/-- Form `sensor` (R68, R75): 0 temperature, 1 humidity, 2 pressure; 3-255 select nothing. -/
def sensorField : Nat → Option Field
  | 0 => some osrsT
  | 1 => some osrsH
  | 2 => some osrsP
  | _ => none

/-- Form `mode` (R68): A[1:0] is used, A[7:2] discarded. -/
def modeOperand (a : Nat) : BitVec 2 := BitVec.ofNat 2 a

/-- Form `level` (R68, R80): an oversampling code 0-5. -/
def levelValid (b : Nat) : Bool := b ≤ 5

/-- Form `code` of IIR.SET and TSB.SET (R68): A[2:0] is used, A[7:3] discarded. -/
def codeOperand (a : Nat) : BitVec 3 := BitVec.ofNat 3 a

/-- Form `actual` (R68): 0 is the raw code, any other value the multiplier. -/
def wantsMultiplier (b : Nat) : Bool := b != 0

/-- Form `sel` (R68, R99): 0 selects the typical constant set, any other value the maximum. -/
def timingOperand (cfg : Config) (a : Nat) : TimingSet := if a = 0 then cfg.typ else cfg.max

/-- OSR_MULT (R37): codes 5, 6 and 7 all give 16. -/
def osrMult (c : BitVec 3) : Nat :=
  match c.toNat with
  | 0 => 0
  | 1 => 1
  | 2 => 2
  | 3 => 4
  | 4 => 8
  | _ => 16

/-- The two forced codes, 01 and 10 (R36; 90 C2). -/
def isForced (m : BitVec 2) : Bool := m == 1 || m == 2

end Sys2Proof.Machine
end

