-- ==== Sys2Proof/Machine/Ops.lean ====
section
/-! DEFINITION. The named operations of the CE: the host register map (10_state R21, R22), `finish` and `raise`
(00_scope R8), sensor-port transactions (R8, 20_memory R47) and field reads and writes (R9, 41_config_mux R76). -/

namespace Sys2Proof.Machine

/-! ### Host register map -/

/-- A host read of CALi (R22): unsigned entries zero-extended, signed entries sign-extended. -/
def calWord (c : Cal) (i : Nat) : Word :=
  match i with
  | 0 => c.t1.setWidth 32
  | 1 => c.t2.signExtend 32
  | 2 => c.t3.signExtend 32
  | 3 => c.p1.setWidth 32
  | 4 => c.p2.signExtend 32
  | 5 => c.p3.signExtend 32
  | 6 => c.p4.signExtend 32
  | 7 => c.p5.signExtend 32
  | 8 => c.p6.signExtend 32
  | 9 => c.p7.signExtend 32
  | 10 => c.p8.signExtend 32
  | 11 => c.p9.signExtend 32
  | 12 => c.h1.setWidth 32
  | 13 => c.h2.signExtend 32
  | 14 => c.h3.setWidth 32
  | 15 => c.h4.signExtend 32
  | 16 => c.h5.signExtend 32
  | 17 => c.h6.signExtend 32
  | _ => 0

/-- The register at a word offset of the host register space (R21); every register not listed reads 0. -/
def hostReg (s : State) (off : Nat) : Word :=
  match off with
  | 0x00 => s.cmd
  | 0x04 => statusWord s
  | 0x08 => s.res0
  | 0x0C => s.res1
  | 0x10 => s.res2
  | 0x14 => s.tFine
  | 0x18 => s.tout
  | 0x1C => s.hout
  | 0x20 => s.pout
  | 0x24 => s.smode.setWidth 32
  | off => if off % 4 = 0 ∧ 0x40 ≤ off then calWord s.cal ((off - 0x40) / 4) else 0

/-- The offsets of the listed registers, in the order of the map (R21). -/
def hostOffsets : List Nat :=
  [0x00, 0x04, 0x08, 0x0C, 0x10, 0x14, 0x18, 0x1C, 0x20, 0x24] ++ (List.range 18).map (fun i => 0x40 + 4 * i)

/-- The values of every host-visible register, in the order of the map (R21, R64). -/
def hostRegs (s : State) : List Word := hostOffsets.map (hostReg s)

/-! ### Event history, finish and raise -/

/-- Add one event to the history (R64). -/
def record (e : Event) (s : State) : State := { s with history := s.history ++ [e] }

/-- `finish(code, r0, r1, r2)` (R8, R25): outcome, results and BUSY <- 0, all at once. The hidden state is discarded (R40). -/
def finish (c : Code) (r0 r1 r2 : Word) (s : State) : State :=
  let t := { s with code := c, res0 := r0, res1 := r1, res2 := r2, seq := .idle }
  record (.finish (hostRegs t)) t

/-- `raise <Outcome>` (R8, R106): the CE's form of taking an exception. Nothing is saved and control goes nowhere (R115). -/
def raise (c : Code) (s : State) : State := finish c 0 0 0 s

/-- The position the engine goes on from: the first transaction when nothing is in flight (R16, R40). -/
def State.pos (s : State) : Pos :=
  match s.seq with
  | .idle => .start
  | .busy _ p => p

/-- The command waits, BUSY, for the transaction at `p` to complete (R16, R62). -/
def waitAt (i : Instr) (p : Pos) (s : State) : State := { s with seq := .busy i p }

/-! ### Sensor-port transactions -/

/-- Byte `k` of what a read returned (R8). A completed read has as many bytes as were asked for, so the default is never
used in a state a run reaches (log entry 14). -/
def byteAt (bs : List Byte) (k : Nat) : Byte := bs.getD k 0

/-- One sensor-port transaction of the command `i` at position `p` (R47, R56): when the next input is the port's answer
and it fits, the transaction is recorded and the command goes on with `k`. An answer that does not fit completes nothing
(log entry 5). With no answer next, the command waits (R62). -/
def transact (i : Instr) (p : Pos) (fits : List Byte → Bool) (event : Bool → List Byte → Event)
    (k : Bool → List Byte → State → Result) (s : State) : Result :=
  match s.inputs with
  | .sensor ack bs :: rest =>
    if fits bs then k ack bs (record (event ack bs) { s with inputs := rest })
    else .next (waitAt i p { s with inputs := rest })
  | _ => .next (waitAt i p s)

/-- `MemReadAck(a, n)` (R8, R63): a read whose transport status is consulted. -/
def memReadAck (i : Instr) (p : Pos) (a : Byte) (n : Nat) (k : Bool → List Byte → State → Result) (s : State) : Result :=
  transact i p (fun bs => bs.length == n) (fun ack bs => .read a n bs (some ack)) k s

/-- `MemRead(a, n)` (R8): the transport status is ignored (R63). -/
def memRead (i : Instr) (p : Pos) (a : Byte) (n : Nat) (k : List Byte → State → Result) (s : State) : Result :=
  transact i p (fun bs => bs.length == n) (fun _ bs => .read a n bs none) (fun _ bs t => k bs t) s

/-- `MemWrite(a, 1, v)` (R8): the transport status is ignored (R63). -/
def memWrite (i : Instr) (p : Pos) (a v : Byte) (k : State → Result) (s : State) : Result :=
  transact i p (fun _ => true) (fun _ _ => .write a v) (fun _ _ t => k t) s

/-! ### Fields of sensor registers -/

/-- The mask `M = ((2^w - 1) << sh) & 0xFF` of a field (R9). -/
def Field.mask (f : Field) : Byte := BitVec.ofNat 8 ((2 ^ f.w - 1) * 2 ^ f.sh)

/-- The field of a register byte, `v[sh+w-1:sh]` (R9). -/
def fieldOf (f : Field) (v : Byte) : Byte := (v >>> f.sh) &&& BitVec.ofNat 8 (2 ^ f.w - 1)

/-- `(old & ~M) | ((v << sh) & M)` (R9): every bit outside the field as read (R76). -/
def fieldInsert (f : Field) (old v : Byte) : Byte := (old &&& ~~~ f.mask) ||| ((v <<< f.sh) &&& f.mask)

/-- `fieldget` (R9): one read of the field's register. -/
def fieldGet (i : Instr) (p : Pos) (f : Field) (k : Byte → State → Result) (s : State) : Result :=
  memRead i p f.reg 1 (fun bs t => k (fieldOf f (byteAt bs 0)) t) s

/-- The second transaction of `fieldset` (R9): the write, with the byte `old` that was read. -/
def fieldPut (i : Instr) (p : Byte → Pos) (f : Field) (v old : Byte) (k : State → Result) (s : State) : Result :=
  memWrite i (p old) f.reg (fieldInsert f old v) k s

/-- `fieldset` (R9): exactly two transactions, read first. `p` is the position of the read, `q old` that of the write. -/
def fieldSet (i : Instr) (p : Pos) (q : Byte → Pos) (f : Field) (v : Byte) (k : State → Result) (s : State) : Result :=
  memRead i p f.reg 1 (fun bs t => fieldPut i q f v (byteAt bs 0) k t) s

end Sys2Proof.Machine
end

