-- ==== Sys2Proof/Machine/ConfigMux.lean ====
section
/-! DEFINITION. The eight commands of the sensor register configuration mux (41_config_mux R75-R85). -/

namespace Sys2Proof.Machine

/-- A getter: one read of the field, its code in RES0 (R78, R82, R84). -/
def getField (i : Instr) (f : Field) (s : State) : Result :=
  fieldGet i .start f (fun v t => .next (finish .ok (v.setWidth 32) 0 0 t)) s

/-- A setter: the field write of R9, from the position it has reached, then `k`. -/
def setField (i : Instr) (f : Field) (v : Byte) (k : State → Result) (s : State) : Result :=
  match s.pos with
  | .fieldWrite old => fieldPut i .fieldWrite f v old k s
  | _ => fieldSet i .start .fieldWrite f v k s

/-- MODE.GET (R78). -/
def execModeGet (s : State) : Result := getField .modeGet modeField s

/-- MODE.SET (R79): SMODE is committed at finish, RES0 is the code written. -/
def execModeSet (a : Nat) (s : State) : Result :=
  setField (.modeSet a) modeField ((modeOperand a).setWidth 8)
    (fun t => .next (finish .ok ((modeOperand a).setWidth 32) 0 0 { t with smode := modeOperand a })) s

/-- OSR.SET (R80): both operands are validated before any transaction (R77). -/
def execOsrSet (a b : Nat) (s : State) : Result :=
  match sensorField a, levelValid b with
  | some f, true => setField (.osrSet a b) f (BitVec.ofNat 8 b) (fun t => .next (finish .ok 1 0 0 t)) s
  | _, _ => .next (raise .failInvalid s)

/-- OSR.GET (R81): the sensor operand is validated before any transaction (R77). -/
def execOsrGet (a b : Nat) (s : State) : Result :=
  match sensorField a with
  | some f => fieldGet (.osrGet a b) .start f (fun v t =>
      let r := if wantsMultiplier b then BitVec.ofNat 32 (osrMult (v.setWidth 3)) else v.setWidth 32
      .next (finish .ok r 0 0 t)) s
  | none => .next (raise .failInvalid s)

/-- IIR.GET (R82). -/
def execIirGet (s : State) : Result := getField .iirGet filterField s

/-- IIR.SET (R83). -/
def execIirSet (a : Nat) (s : State) : Result :=
  setField (.iirSet a) filterField ((codeOperand a).setWidth 8)
    (fun t => .next (finish .ok ((codeOperand a).setWidth 32) 0 0 t)) s

/-- TSB.GET (R84). -/
def execTsbGet (s : State) : Result := getField .tsbGet tsbField s

/-- TSB.SET (R85). -/
def execTsbSet (a : Nat) (s : State) : Result :=
  setField (.tsbSet a) tsbField ((codeOperand a).setWidth 8)
    (fun t => .next (finish .ok ((codeOperand a).setWidth 32) 0 0 t)) s

end Sys2Proof.Machine
end

