-- ==== Sys2Proof/Machine/Initialization.lean ====
section
/-! DEFINITION. BEGIN and RESET (40_initialization R70-R74, 44_reset_cmd R104, R105). -/

namespace Sys2Proof.Machine

/-- The chip identifier BEGIN expects (R5, R28). -/
def chipId : Byte := 0x60

/-- The byte RESET writes to 0xE0 (R5, R29). -/
def softResetCode : Byte := 0xB6

/-- A 16-bit value from two bytes, low byte at index `k` (R48, R71). -/
def le16 (bs : List Byte) (k : Nat) : BitVec 16 := byteAt bs (k + 1) ++ byteAt bs k

/-- Coefficient assembly `assemble(c, h1, e)` (R71): `c` from 0x88, `h1` from 0xA1, `e` from 0xE1. -/
def assemble (c h1 e : List Byte) : Cal where
  t1 := le16 c 0
  t2 := le16 c 2
  t3 := le16 c 4
  p1 := le16 c 6
  p2 := le16 c 8
  p3 := le16 c 10
  p4 := le16 c 12
  p5 := le16 c 14
  p6 := le16 c 16
  p7 := le16 c 18
  p8 := le16 c 20
  p9 := le16 c 22
  h1 := byteAt h1 0
  h2 := le16 e 0
  h3 := byteAt e 2
  h4 := (byteAt e 3 ++ (byteAt e 4).extractLsb' 0 4).signExtend 16
  h5 := (byteAt e 5 ++ (byteAt e 4).extractLsb' 4 4).signExtend 16
  h6 := byteAt e 6

/-- BEGIN's read of H2..H6, then the commit of CAL at finish (R70, R25). -/
def loadH (i : Instr) (c h1 : List Byte) (s : State) : Result :=
  memRead i (.calH c h1) 0xE1 7 (fun e t => .next (finish .ok 1 0 0 { t with cal := assemble c h1 e })) s

/-- BEGIN's read of H1 and what follows (R70). -/
def loadH1 (i : Instr) (c : List Byte) (s : State) : Result :=
  memRead i (.calH1 c) 0xA1 1 (fun h1 t => loadH i c h1 t) s

/-- BEGIN's read of T1..P9 and what follows (R70). -/
def loadTP (i : Instr) (s : State) : Result :=
  memRead i .calTP 0x88 24 (fun c t => loadH1 i c t) s

/-- BEGIN's identity check: the transport status first, then the byte (R70, R113). -/
def identify (i : Instr) (p : Pos) (s : State) : Result :=
  memReadAck i p 0xD0 1 (fun ack id t =>
    if !ack || byteAt id 0 != chipId then .next (raise .failNodev t) else loadTP i t) s

/-- The calibration load from the position it has reached; none when it has not got past the identity check. -/
def resumeLoad (i : Instr) (s : State) : Option Result :=
  match s.pos with
  | .calTP => some (loadTP i s)
  | .calH1 c => some (loadH1 i c s)
  | .calH c h1 => some (loadH i c h1 s)
  | _ => none

/-- BEGIN (R70). -/
def execBegin (s : State) : Result := (resumeLoad .begin s).getD (identify .begin .start s)

/-- RESET (R104): the reset write, then the body of BEGIN from its first line. -/
def execReset (s : State) : Result :=
  match s.pos with
  | .identity => identify .reset .identity s
  | _ => (resumeLoad .reset s).getD
      (memWrite .reset .start 0xE0 softResetCode (fun t => identify .reset .identity t) s)

end Sys2Proof.Machine
end

