-- ==== Sys2Proof/Machine/Compensation.lean ====
section
/-! DEFINITION. The compensation datapath (42_compensation R90-R97). `int32 arithmetic` and `int64 arithmetic` (00_scope R7)
are the two's-complement operations of 32- and 64-bit vectors: each `+`, `-`, `*` and `<<` wraps, `>>` is `sshiftRight`
(floor), `/` is `sdiv` (toward zero). Log entry 16. -/

namespace Sys2Proof.Machine

/-- 20-bit raw value from MSB, LSB, XLSB (R90). -/
def raw20 (b0 b1 b2 : Byte) : Word :=
  (b0.setWidth 32 <<< 12) ||| (b1.setWidth 32 <<< 4) ||| (b2.setWidth 32 >>> 4)

/-- 16-bit raw value from MSB, LSB (R90). -/
def raw16 (b0 b1 : Byte) : Word := (b0.setWidth 32 <<< 8) ||| b1.setWidth 32

/-- adc_P of the burst (R90). -/
def adcP (d : List Byte) : Word := raw20 (byteAt d 0) (byteAt d 1) (byteAt d 2)
/-- adc_T of the burst (R90). -/
def adcT (d : List Byte) : Word := raw20 (byteAt d 3) (byteAt d 4) (byteAt d 5)
/-- adc_H of the burst (R90). -/
def adcH (d : List Byte) : Word := raw16 (byteAt d 6) (byteAt d 7)

/-- The t_fine of `CompT` (R91), int32 arithmetic. -/
def fineTemp (c : Cal) (adc : Word) : Word :=
  let t1 := c.t1.setWidth 32
  let t2 := c.t2.signExtend 32
  let t3 := c.t3.signExtend 32
  let var1 := ((adc.sshiftRight 3 - t1 <<< 1) * t2).sshiftRight 11
  let d := adc.sshiftRight 4 - t1
  let var2 := ((d * d).sshiftRight 12 * t3).sshiftRight 14
  var1 + var2

/-- The T of `CompT` (R91): centi-degrees Celsius. -/
def tempOut (tFine : Word) : Word := (tFine * 5 + 128).sshiftRight 8

/-- `CompT(adc_T) -> (t_fine, T)` (R91). -/
def compT (c : Cal) (adc : Word) : Word × Word := (fineTemp c adc, tempOut (fineTemp c adc))

/-- The denominator of `CompP`: `var1` after its sixth line (R92). -/
def pressDen (c : Cal) (tFine : Word) : DWord :=
  let var1 := tFine.signExtend 64 - 128000
  let var1 := (var1 * var1 * c.p3.signExtend 64).sshiftRight 8 + (var1 * c.p2.signExtend 64) <<< 12
  (((1#64 <<< 47) + var1) * c.p1.setWidth 64).sshiftRight 33

/-- The offset term of `CompP`: `var2` after its fourth line (R92). -/
def pressOff (c : Cal) (tFine : Word) : DWord :=
  let var1 := tFine.signExtend 64 - 128000
  let var2 := var1 * var1 * c.p6.signExtend 64
  let var2 := var2 + (var1 * c.p5.signExtend 64) <<< 17
  var2 + c.p4.signExtend 64 <<< 35

/-- The Q24.8 result of `CompP` for a denominator that is not 0 (R92). -/
def pressQ (c : Cal) (adc tFine : Word) : DWord :=
  let p := 1048576 - adc.signExtend 64
  let p := ((p <<< 31 - pressOff c tFine) * 3125).sdiv (pressDen c tFine)
  let var1 := (c.p9.signExtend 64 * p.sshiftRight 13 * p.sshiftRight 13).sshiftRight 25
  let var2 := (c.p8.signExtend 64 * p).sshiftRight 19
  (p + var1 + var2).sshiftRight 8 + c.p7.signExtend 64 <<< 4

/-- `pq_to_pa(p) = wrap32(p >> 8)` (R94). -/
def pqToPa (p : DWord) : Word := (p.sshiftRight 8).setWidth 32

/-- `CompP(adc_P, t_fine) -> P` (R92), 0 for a zero denominator (R93). -/
def compP (c : Cal) (adc tFine : Word) : Word :=
  if pressDen c tFine = 0 then 0 else pqToPa (pressQ c adc tFine)

/-- `CompH`, first stage (R95), int32 arithmetic. -/
def humRaw (c : Cal) (adc tFine : Word) : Word :=
  let h1 := c.h1.setWidth 32
  let h2 := c.h2.signExtend 32
  let h3 := c.h3.setWidth 32
  let h4 := c.h4.signExtend 32
  let h5 := c.h5.signExtend 32
  let h6 := c.h6.signExtend 32
  let v := tFine - 76800
  let v := (adc <<< 14 - h4 <<< 20 - h5 * v + 16384).sshiftRight 15
    * (((((v * h6).sshiftRight 10 * ((v * h3).sshiftRight 11 + 32768)).sshiftRight 10 + 2097152) * h2 + 8192).sshiftRight 14)
  v - ((((v.sshiftRight 15 * v.sshiftRight 15).sshiftRight 7) * h1).sshiftRight 4)

/-- The upper clamp bound of R96. -/
def humMax : Word := 419430400

/-- `clamp(v, 0, 419430400)` (R7, R96), `v` signed. -/
def humClamp (v : Word) : Word :=
  if v.slt 0 then 0 else if humMax.slt v then humMax else v

/-- The output stage of `CompH` (R96): percent x 100, unsigned and truncating. -/
def humOut (v : Word) : Word := ((humClamp v).sshiftRight 12 * 100) / 1024

/-- `CompH(adc_H, t_fine) -> H` (R95, R96). -/
def compH (c : Cal) (adc tFine : Word) : Word := humOut (humRaw c adc tFine)

end Sys2Proof.Machine
end

