-- ==== Sys2Proof/Machine/Reference.lean ====
section
/-! DEFINITION. The rules R91, R92 and R95 evaluated on mathematical integers, and `NoOverflow` (42_compensation R98): the
reference the CE agrees with wherever no intermediate leaves its width. `>>` is the floor of a division by a power of two,
`<<` a multiplication by one (00_scope R7). Each function also lists its intermediates, the results of `+`, `-`, `*`, `<<`
and `/`; a shift right never leaves the width of its operand. -/

namespace Sys2Proof.Machine

/-- `wrap32` of R7. -/
def wrap32 (x : Int) : Int := (x + 2 ^ 31) % 2 ^ 32 - 2 ^ 31

/-- `wrap64` of R7. -/
def wrap64 (x : Int) : Int := (x + 2 ^ 63) % 2 ^ 64 - 2 ^ 63

/-- A value of the int32 domain. -/
def fits32 (x : Int) : Bool := -2 ^ 31 ≤ x && x < 2 ^ 31

/-- A value of the int64 domain. -/
def fits64 (x : Int) : Bool := -2 ^ 63 ≤ x && x < 2 ^ 63

/-- A reference result together with the intermediates of its computation. -/
structure RefValue where
  value : Int
  steps : List Int
deriving DecidableEq, Repr

/-- t_fine of R91 on integers. -/
def refFine (c : Cal) (adc : Int) : RefValue :=
  let t1 : Int := c.t1.toNat
  let t2 := c.t2.toInt
  let t3 := c.t3.toInt
  let a := adc / 2 ^ 3 - t1 * 2
  let var1 := a * t2 / 2 ^ 11
  let d := adc / 2 ^ 4 - t1
  let e := d * d / 2 ^ 12
  let var2 := e * t3 / 2 ^ 14
  { value := var1 + var2, steps := [t1 * 2, a, a * t2, d, d * d, e * t3, var1 + var2] }

/-- T of R91 on integers. -/
def refTemp (tFine : Int) : RefValue :=
  { value := (tFine * 5 + 128) / 2 ^ 8, steps := [tFine * 5, tFine * 5 + 128] }

/-- The denominator of R92 (var1 after its sixth line) on integers. -/
def refPressDen (c : Cal) (tFine : Int) : RefValue :=
  let p1 : Int := c.p1.toNat
  let v := tFine - 128000
  let a := v * v
  let b := a * c.p3.toInt
  let d := v * c.p2.toInt
  let e := b / 2 ^ 8 + d * 2 ^ 12
  let f : Int := 2 ^ 47 + e
  let g := f * p1
  { value := g / 2 ^ 33, steps := [v, a, b, d, d * 2 ^ 12, e, f, g] }

/-- The offset term of R92 (var2 after its fourth line) on integers. -/
def refPressOff (c : Cal) (tFine : Int) : RefValue :=
  let v := tFine - 128000
  let a := v * v
  let b := a * c.p6.toInt
  let d := v * c.p5.toInt
  let e := b + d * 2 ^ 17
  let f := c.p4.toInt * 2 ^ 35
  { value := e + f, steps := [v, a, b, d, d * 2 ^ 17, e, f, e + f] }

/-- The Q24.8 result of R92 on integers, for the denominator `den` and the offset term `off`. -/
def refPressQ (c : Cal) (adc den off : Int) : RefValue :=
  let p := 1048576 - adc
  let a := p * 2 ^ 31
  let b := a - off
  let d := b * 3125
  let q := d.tdiv den
  let e := c.p9.toInt * (q / 2 ^ 13)
  let f := e * (q / 2 ^ 13)
  let var1 := f / 2 ^ 25
  let g := c.p8.toInt * q
  let var2 := g / 2 ^ 19
  let h := q + var1
  let k := h + var2
  let m := c.p7.toInt * 2 ^ 4
  { value := k / 2 ^ 8 + m, steps := [p, a, b, d, q, e, f, g, h, k, m, k / 2 ^ 8 + m] }

/-- `CompP` on integers (R92-R94): with a zero denominator only the lines before the test are computed (R93). -/
def refPress (c : Cal) (adc tFine : Int) : RefValue :=
  let den := refPressDen c tFine
  let off := refPressOff c tFine
  if den.value = 0 then { value := 0, steps := off.steps ++ den.steps }
  else
    let q := refPressQ c adc den.value off.value
    { value := wrap32 (q.value / 2 ^ 8), steps := off.steps ++ den.steps ++ q.steps }

/-- The first stage of `CompH` (R95) on integers. -/
def refHumRaw (c : Cal) (adc tFine : Int) : RefValue :=
  let h1 : Int := c.h1.toNat
  let h2 := c.h2.toInt
  let h3 : Int := c.h3.toNat
  let h4 := c.h4.toInt
  let h5 := c.h5.toInt
  let h6 := c.h6.toInt
  let v := tFine - 76800
  let a1 := adc * 2 ^ 14
  let a2 := h4 * 2 ^ 20
  let a3 := a1 - a2
  let a4 := h5 * v
  let a5 := a3 - a4
  let a6 := a5 + 16384
  let b1 := v * h6
  let b2 := v * h3
  let b3 := b2 / 2 ^ 11 + 32768
  let b4 := b1 / 2 ^ 10 * b3
  let b5 := b4 / 2 ^ 10 + 2097152
  let b6 := b5 * h2
  let b7 := b6 + 8192
  let x := a6 / 2 ^ 15 * (b7 / 2 ^ 14)
  let y1 := x / 2 ^ 15 * (x / 2 ^ 15)
  let y2 := y1 / 2 ^ 7 * h1
  { value := x - y2 / 2 ^ 4,
    steps := [v, a1, a2, a3, a4, a5, a6, b1, b2, b3, b4, b5, b6, b7, x, y1, y2, x - y2 / 2 ^ 4] }

/-- The clamp and output stage of R96 on integers. -/
def refHumOut (v : Int) : Int := (max 0 (min v 419430400)) / 2 ^ 12 * 100 / 1024

/-- `NoOverflow(CAL, adc_T, adc_P, adc_H)` (R98): no intermediate of R91, R92 and R95 leaves its width. -/
def noOverflow (c : Cal) (adcT adcP adcH : Int) : Bool :=
  let f := refFine c adcT
  f.steps.all fits32 && (refTemp f.value).steps.all fits32
    && (refPress c adcP f.value).steps.all fits64
    && (refHumRaw c adcH f.value).steps.all fits32

end Sys2Proof.Machine
end

