-- ==== Sys2Proof/Machine/Reading.lean ====
section
/-! DEFINITION. READ (42_compensation R86-R89): forced-mode re-trigger, status poll, burst, compensation, commit. -/

namespace Sys2Proof.Machine

/-- The mask of `measuring` and `im_update` in the status register (R31). -/
def busyMask : Byte := 0x09

/-- READ's fourth and fifth step (R86): compute from the burst, temperature first (R87), and commit at finish (R25).
With OVF_MODEL = fault an intermediate that leaves its width stops the model instead (R5; 93 U7; log entry 12). -/
def compensate (d : List Byte) (s : State) : Result :=
  if s.cfg.ovf = .fault ∧ noOverflow s.cal (adcT d).toInt (adcP d).toInt (adcH d).toInt = false then
    .fault .intermediateOverflow
  else
    let (tFine, temp) := compT s.cal (adcT d)
    let press := compP s.cal (adcP d) tFine
    let hum := compH s.cal (adcH d) tFine
    .next (finish .ok temp hum press { s with tFine := tFine, tout := temp, hout := hum, pout := press })

/-- READ's burst (R86, R90) and what follows. -/
def readBurst (s : State) : Result := memRead .read .burst 0xF7 8 compensate s

/-- A finite POLL_LIMIT has been reached by `n` busy polls (R86, R89). -/
def pollsExhausted (cfg : Config) (n : Nat) : Bool :=
  match cfg.pollLimit with
  | none => false
  | some k => k ≤ n

/-- READ's status poll after `n` busy polls (R86, R89) and what follows. Every poll takes an answer from the inputs, so
`fuel` = the number of inputs is never used up; were it, the command would wait and go on at the next step. -/
def pollStatus (fuel n : Nat) (s : State) : Result :=
  memRead .read (.poll n) 0xF3 1 (fun bs t =>
    if byteAt bs 0 &&& busyMask = 0 then readBurst t
    else if pollsExhausted t.cfg (n + 1) then .next (raise .timeout t)
    else
      match fuel with
      | 0 => .next (waitAt .read (.poll (n + 1)) t)
      | fuel + 1 => pollStatus fuel (n + 1) t) s

/-- READ from its status poll on, after `n` busy polls. -/
def readPoll (n : Nat) (s : State) : Result := pollStatus s.inputs.length n s

/-- READ's first step (R86, R88): with a forced SMODE, a fresh read of the mode field; 00 re-issues the stored mode. -/
def readStart (s : State) : Result :=
  if isForced s.smode then
    fieldGet .read .start modeField (fun cur t =>
      if cur = 0 then fieldSet .read .trigRead .trigWrite modeField (s.smode.setWidth 8) (readPoll 0) t
      else readPoll 0 t) s
  else readPoll 0 s

/-- READ (R86), from the position it has reached. -/
def execRead (s : State) : Result :=
  match s.pos with
  | .trigRead => fieldSet .read .trigRead .trigWrite modeField (s.smode.setWidth 8) (readPoll 0) s
  | .trigWrite old => fieldPut .read .trigWrite modeField (s.smode.setWidth 8) old (readPoll 0) s
  | .poll n => readPoll n s
  | .burst => readBurst s
  | _ => readStart s

end Sys2Proof.Machine
end

