-- ==== Sys2Proof/Machine/Timing.lean ====
section
/-! DEFINITION. MTIME, the measurement-duration calculator (43_timing R99-R103). -/

namespace Sys2Proof.Machine

/-- The contribution of one quantity (R100): nothing when its oversampling is off, else the multiplier-scaled per-sample
time and the quantity's overhead. -/
def sampleTime (code : BitVec 3) (perSample overhead : Nat) : Nat :=
  if osrMult code = 0 then 0 else osrMult code * perSample + overhead

/-- The sum of `MeasTime` (R100) on mathematical integers, before its reduction. -/
def measSum (cfg : Config) (k : TimingSet) (tsb ct cp ch : BitVec 3) : Nat :=
  cfg.tSbUs[tsb.toNat] + sampleTime ct k.perSample k.overT + sampleTime cp k.perSample k.overP
    + sampleTime ch k.perSample k.overH

/-- `MeasTime(tsb, ct, cp, ch, K)` (R100), reduced mod 2^32. -/
def measTime (cfg : Config) (k : TimingSet) (tsb ct cp ch : BitVec 3) : Word :=
  BitVec.ofNat 32 (measSum cfg k tsb ct cp ch)

/-- A 3-bit field of a register byte. -/
def code3 (f : Field) (v : Byte) : BitVec 3 := (fieldOf f v).setWidth 3

/-- MTIME's read of ctrl_hum and its result (R99). -/
def mtimeHumRead (a : Nat) (f5 f4 : Byte) (s : State) : Result :=
  memRead (.mtime a) (.mtimeHum f5 f4) 0xF2 1 (fun bs t =>
    .next (finish .ok (measTime t.cfg (timingOperand t.cfg a) (code3 tsbField f5) (code3 osrsT f4) (code3 osrsP f4)
      (code3 osrsH (byteAt bs 0))) 0 0 t)) s

/-- MTIME's read of ctrl_meas and what follows (R99). -/
def mtimeMeasRead (a : Nat) (f5 : Byte) (s : State) : Result :=
  memRead (.mtime a) (.mtimeMeas f5) 0xF4 1 (fun bs t => mtimeHumRead a f5 (byteAt bs 0) t) s

/-- MTIME (R99), from the position it has reached; config is read first. -/
def execMtime (a : Nat) (s : State) : Result :=
  match s.pos with
  | .mtimeMeas f5 => mtimeMeasRead a f5 s
  | .mtimeHum f5 f4 => mtimeHumRead a f5 f4 s
  | _ => memRead (.mtime a) .start 0xF5 1 (fun bs t => mtimeMeasRead a (byteAt bs 0) t) s

end Sys2Proof.Machine
end

