-- ==== Sys2Proof/Machine/Dispatch.lean ====
section
/-! DEFINITION. One arm per command (30_encoding R67). -/

namespace Sys2Proof.Machine

/-- The meaning of a command: the engine runs it, from its start or from the position in which it waits, as far as the
sensor port's answers go (10_state R16). -/
def exec (i : Instr) (s : State) : Host.Outcome State Fault Refusal :=
  match i with
  | .begin => Sys2Proof.Machine.execBegin s
  | .reset => Sys2Proof.Machine.execReset s
  | .modeGet => Sys2Proof.Machine.execModeGet s
  | .modeSet a => Sys2Proof.Machine.execModeSet a s
  | .osrSet a b => Sys2Proof.Machine.execOsrSet a b s
  | .osrGet a b => Sys2Proof.Machine.execOsrGet a b s
  | .iirGet => Sys2Proof.Machine.execIirGet s
  | .iirSet a => Sys2Proof.Machine.execIirSet a s
  | .tsbGet => Sys2Proof.Machine.execTsbGet s
  | .tsbSet a => Sys2Proof.Machine.execTsbSet a s
  | .mtime a => Sys2Proof.Machine.execMtime a s
  | .read => Sys2Proof.Machine.execRead s

end Sys2Proof.Machine
end

