-- ==== Sys2Proof/Machine/HostPort.lean ====
section
/-! DEFINITION. The host port, the acceptance of command words, the power-on reset, and what one input does
(10_state R16-R24, 20_memory R43-R45, 70_reset R126). -/

namespace Sys2Proof.Machine

/-- The offset a system address selects in the host register space (R43, R54); none outside its 256 bytes. -/
def hostOffset (cfg : Config) (addr : Nat) : Option Nat :=
  if cfg.hostBase ≤ addr ∧ addr < cfg.hostBase + 256 then some (addr - cfg.hostBase) else none

/-- The access is an aligned 32-bit word access (R44). -/
def wordAccess (off width : Nat) : Bool := width == 32 && off % 4 == 0

/-- What a host read of `width` bits at `off` returns (R21, R44). -/
def hostReadValue (s : State) (off width : Nat) : Word := if wordAccess off width then hostReg s off else 0

/-- Byte lane `k` of a host word (R45). -/
def byteLane (w : Word) (k : Nat) : Byte := w.extractLsb' (8 * k) 8

/-- A host read (R21, R124): the port answers, and nothing else happens. -/
def hostRead (addr width : Nat) (s : State) : State :=
  match hostOffset s.cfg addr with
  | some off => { s with replies := s.replies ++ [hostReadValue s off width] }
  | none => s

/-- A command word is accepted (R17): CMD takes it and BUSY is 1. A word that encodes no command is raised ILLEGAL at once
(R66, R110); any other starts its command. -/
def accept (w : Word) (s : State) : Result :=
  match decode w with
  | .command i => exec i { s with cmd := w, seq := .busy i .start }
  | .rejected _ => .next (raise .illegal { s with cmd := w })

/-- A host write (R17, R23, R24, R44): only an aligned word write of CMD while IDLE does anything. -/
def hostWrite (addr width : Nat) (data : Word) (s : State) : Result :=
  match hostOffset s.cfg addr with
  | some off =>
    match s.seq with
    | .idle => if wordAccess off width && off == 0 then accept data s else .next s
    | .busy _ _ => .next s
  | none => .next s

/-- The CE's power-on reset (R126): every piece of CE state at its value of R41, whatever was in flight. The parameters, what
is still to come and what was observed stay (log entry 9). -/
def powerOn (s : State) : State :=
  { State.reset with cfg := s.cfg, inputs := s.inputs, history := s.history, replies := s.replies }

/-- What the next input does. A sensor answer lets the command in flight go on; with none in flight there is no transaction
it could complete (log entry 5). With no input, an IDLE engine waits (R126; log entry 4) and a BUSY one is stuck (R62, R111). -/
def serve (s : State) : Result :=
  match s.inputs with
  | [] =>
    match s.seq with
    | .idle => .next s
    | .busy _ _ => .fault .hang
  | .hostWrite addr width data :: rest => hostWrite addr width data { s with inputs := rest }
  | .hostRead addr width :: rest => .next (hostRead addr width { s with inputs := rest })
  | .sensor _ _ :: rest =>
    match s.seq with
    | .idle => .next { s with inputs := rest }
    | .busy i _ => exec i s
  | .powerOn :: rest => .next (powerOn { s with inputs := rest })

/-- The host writes the word `w` to CMD next, and the engine is IDLE to accept it. -/
def placeCommand (w : Word) (s : State) : State :=
  { s with seq := .idle, inputs := .hostWrite s.cfg.hostBase 32 w :: s.inputs }

end Sys2Proof.Machine
end

