-- ==== Sys2Proof/Machine/Step.lean ====
section
/-! DEFINITION. One step: the next input is served (10_state R16, 20_memory R56). The host is the program: a command word is
the data of a host write to CMD, not something fetched at a program counter (R16, R59; log entry 13). -/

namespace Sys2Proof.Machine

/-- One step of the CE. -/
def step (s : State) : Host.Outcome State Fault Refusal := serve s

/-- `s` with the command word `w` (its low `nbits` bits) as what the host writes to CMD next. -/
def State.withFetchWord (s : State) (nbits w : Nat) : State := placeCommand (BitVec.ofNat 32 (w % 2 ^ nbits)) s

end Sys2Proof.Machine
end

