-- ==== Sys2Proof/Machine/Assembler.lean ====
section
/-! DEFINITION. The assembler syntax and the pseudo-instructions (30_encoding R69). The CE itself sees command words only
(00_scope R3). What R69 leaves open about the text is log entry 20. -/

namespace Sys2Proof.Machine

/-- What one line of source text is. -/
inductive AsmLine where
  /-- Nothing but white space and a comment. -/
  | blank
  | command (i : Instr)
  | error
deriving DecidableEq, Repr

/-- White space within a line. -/
def isBlankChar (c : Char) : Bool := c == ' ' || c == '\t'

/-- The text without white space at its ends. -/
def trim (cs : List Char) : List Char := ((cs.dropWhile isBlankChar).reverse.dropWhile isBlankChar).reverse

/-- The text between commas. -/
def splitCommas : List Char → List (List Char)
  | [] => [[]]
  | c :: cs =>
    match c == ',', splitCommas cs with
    | true, parts => [] :: parts
    | false, [] => [[c]]
    | false, p :: ps => (c :: p) :: ps

/-- The value of a digit in base 16. -/
def digitValue (c : Char) : Option Nat :=
  if '0' ≤ c ∧ c ≤ '9' then some (c.toNat - '0'.toNat)
  else if 'a' ≤ c ∧ c ≤ 'f' then some (c.toNat - 'a'.toNat + 10)
  else if 'A' ≤ c ∧ c ≤ 'F' then some (c.toNat - 'A'.toNat + 10)
  else none

/-- Read digits of a base, on from the value `acc`. -/
def readDigits (base : Nat) : Nat → List Char → Option Nat
  | acc, [] => some acc
  | acc, c :: cs =>
    match digitValue c with
    | some d => if d < base then readDigits base (acc * base + d) cs else none
    | none => none

/-- A numeral 0-255, decimal or `0x` hex (R69). -/
def numeral (cs : List Char) : Option Nat :=
  let n := match cs with
    | [] => none
    | '0' :: 'x' :: [] => none
    | '0' :: 'x' :: ds => readDigits 16 0 ds
    | ds => readDigits 10 0 ds
  match n with
  | some v => if v < 256 then some v else none
  | none => none

/-- An operand: one of its spellings, whose value is its place in the list, or a numeral (R69). -/
def operand (spellings : List String) (cs : List Char) : Option Nat :=
  match spellings.findIdx? (fun t => t.toList == cs) with
  | some k => some k
  | none => numeral cs

/-- Operand spellings of R69, each at the place of its value. -/
def modeNames : List String := ["SLEEP", "FORCED", "FORCED2", "NORMAL"]
def sensorNames : List String := ["T", "H", "P"]
def levelNames : List String := ["OFF", "X1", "X2", "X4", "X8", "X16"]
def actualNames : List String := ["RAW", "ACT"]
def selNames : List String := ["TYP", "MAX"]

/-- The forms and pseudo-instructions of R69, by mnemonic and operands. -/
def assembleForm (m : List Char) (ops : List (List Char)) : Option Instr :=
  match ops with
  | [] =>
    if m = "BEGIN".toList then some .begin
    else if m = "RESET".toList then some .reset
    else if m = "MODE.GET".toList then some .modeGet
    else if m = "IIR.GET".toList then some .iirGet
    else if m = "TSB.GET".toList then some .tsbGet
    else if m = "MTIME".toList then some (.mtime 0)
    else if m = "READ".toList ∨ m = "GETDATA".toList then some .read
    else if m = "TRIGGER".toList then some (.modeSet 1)
    else if m = "SLEEP".toList then some (.modeSet 0)
    else none
  | [x] =>
    if m = "MODE.SET".toList then (operand modeNames x).map .modeSet
    else if m = "OSR.GET".toList then (operand sensorNames x).map (fun s => .osrGet s 0)
    else if m = "OSR.ACT".toList then (operand sensorNames x).map (fun s => .osrGet s 1)
    else if m = "IIR.SET".toList then (operand [] x).map .iirSet
    else if m = "TSB.SET".toList then (operand [] x).map .tsbSet
    else if m = "MTIME".toList then (operand selNames x).map .mtime
    else none
  | [x, y] =>
    if m = "OSR.SET".toList then
      (operand sensorNames x).bind (fun s => (operand levelNames y).map (fun l => .osrSet s l))
    else if m = "OSR.GET".toList then
      (operand sensorNames x).bind (fun s => (operand actualNames y).map (fun a => .osrGet s a))
    else none
  | _ => none

/-- One line of source text (R69). -/
def assembleLine (line : String) : AsmLine :=
  match trim (line.toList.takeWhile (fun c => c != ';')) with
  | [] => .blank
  | text =>
    let m := text.takeWhile (fun c => !isBlankChar c)
    let rest := trim (text.dropWhile (fun c => !isBlankChar c))
    match assembleForm m (if rest.isEmpty then [] else (splitCommas rest).map trim) with
    | some i => .command i
    | none => .error

/-- The command word a line encodes to (R69). -/
def assembleWord (line : String) : Option Word :=
  match assembleLine line with
  | .command i => some (encode i)
  | _ => none

end Sys2Proof.Machine
end

