-- ==== Sys2Proof/Machine/SensorPort.lean ====
section
/-! DEFINITION. What the CE shows at its sensor port while a command is in flight: the transaction it has issued and waits
for (20_memory R47, R56). The position in the command's rule decides it (10_state R40). -/

namespace Sys2Proof.Machine

/-- A sensor-port transaction that has been issued (R47). -/
inductive Request where
  | read (addr : Byte) (count : Nat)
  | write (addr value : Byte)
deriving DecidableEq, Repr

/-- The field and the value a setter writes (R79, R80, R83, R85); none for the other commands. -/
def setterWrite : Instr → Option (Field × Byte)
  | .modeSet a => some (modeField, (modeOperand a).setWidth 8)
  | .osrSet a b => (sensorField a).map (fun f => (f, BitVec.ofNat 8 b))
  | .iirSet a => some (filterField, (codeOperand a).setWidth 8)
  | .tsbSet a => some (tsbField, (codeOperand a).setWidth 8)
  | .begin | .reset | .modeGet | .osrGet _ _ | .iirGet | .tsbGet | .mtime _ | .read => none

/-- The first transaction of a command's rule. -/
def firstRequest (smode : BitVec 2) : Instr → Option Request
  | .begin => some (.read 0xD0 1)
  | .reset => some (.write 0xE0 softResetCode)
  | .modeGet => some (.read 0xF4 1)
  | .modeSet _ => some (.read 0xF4 1)
  | .osrSet a b => if levelValid b then (sensorField a).map (fun f => .read f.reg 1) else none
  | .osrGet a _ => (sensorField a).map (fun f => .read f.reg 1)
  | .iirGet => some (.read 0xF5 1)
  | .iirSet _ => some (.read 0xF5 1)
  | .tsbGet => some (.read 0xF5 1)
  | .tsbSet _ => some (.read 0xF5 1)
  | .mtime _ => some (.read 0xF5 1)
  | .read => some (if isForced smode then .read 0xF4 1 else .read 0xF3 1)

/-- The transaction at a position of a command's rule. -/
def requestAt (smode : BitVec 2) (i : Instr) : Pos → Option Request
  | .start => firstRequest smode i
  | .identity => some (.read 0xD0 1)
  | .calTP => some (.read 0x88 24)
  | .calH1 _ => some (.read 0xA1 1)
  | .calH _ _ => some (.read 0xE1 7)
  | .fieldWrite old => (setterWrite i).map (fun fv => .write fv.1.reg (fieldInsert fv.1 old fv.2))
  | .mtimeMeas _ => some (.read 0xF4 1)
  | .mtimeHum _ _ => some (.read 0xF2 1)
  | .trigRead => some (.read 0xF4 1)
  | .trigWrite old => some (.write 0xF4 (fieldInsert modeField old (smode.setWidth 8)))
  | .poll _ => some (.read 0xF3 1)
  | .burst => some (.read 0xF7 8)

/-- The transaction the engine has issued; none while it is IDLE. -/
def State.request (s : State) : Option Request :=
  match s.seq with
  | .idle => none
  | .busy i p => requestAt s.smode i p

/-- The event records the completion of the request (R64). -/
def Event.completes (e : Event) (r : Request) : Bool :=
  match e, r with
  | .read a n bs _, .read a' n' => a == a' && n == n' && bs.length == n
  | .write a v, .write a' v' => a == a' && v == v'
  | _, _ => false

end Sys2Proof.Machine
end

