-- ==== Sys2Proof/Safety.lean ====
section
/-! DEFINITION. The terms the statements about the CE use: the invariant of its state, what it means that a command has
finished, which transactions a command may perform, which command a step runs. -/

namespace Sys2Proof.Machine

/-! ### The invariant -/

/-- A 16-bit value that is the sign extension of its low 12 bits (10_state R11: H4 and H5). -/
def isSext12 (v : BitVec 16) : Bool := (v.setWidth 12).signExtend 16 == v

/-- The position is one that the command's rule has, and the bytes read so far are as many as the rule has read by then
(10_state R40). READ is at its first transaction or in its re-trigger only with a forced SMODE (R88), and at a poll only
while POLL_LIMIT is not reached (R89). -/
def inSequence (s : State) (i : Instr) (p : Pos) : Bool :=
  match i, p with
  | .read, .start => isForced s.smode
  | .read, .trigRead => isForced s.smode
  | .read, .trigWrite _ => isForced s.smode
  | .read, .poll n => n == 0 || !pollsExhausted s.cfg n
  | .read, .burst => true
  | .osrSet a b, .start => (sensorField a).isSome && levelValid b
  | .osrSet a b, .fieldWrite _ => (sensorField a).isSome && levelValid b
  | .osrGet a _, .start => (sensorField a).isSome
  | .modeSet _, .fieldWrite _ => true
  | .iirSet _, .fieldWrite _ => true
  | .tsbSet _, .fieldWrite _ => true
  | .mtime _, .mtimeMeas _ => true
  | .mtime _, .mtimeHum _ _ => true
  | .reset, .identity => true
  | .begin, .calTP => true
  | .begin, .calH1 c => c.length == 24
  | .begin, .calH c h1 => c.length == 24 && h1.length == 1
  | .reset, .calTP => true
  | .reset, .calH1 c => c.length == 24
  | .reset, .calH c h1 => c.length == 24 && h1.length == 1
  | _, .start => true
  | _, _ => false

/-- The command in flight is the one CMD encodes (R17, R24), at a position of its rule. -/
def flightOk (s : State) : Bool :=
  match s.seq with
  | .idle => true
  | .busy i p => decode s.cmd == .command i && inSequence s i p

/-- The invariant of the CE's state: H4 and H5 hold sext12 values (R11), HOUT is at most 10000 (R96), and what is in flight
is a command at a position of its rule (R16, R17, R40). -/
structure Inv (s : State) : Prop where
  h4     : isSext12 s.cal.h4 = true
  h5     : isSext12 s.cal.h5 = true
  hum    : s.hout.toNat ≤ 10000
  flight : flightOk s = true

/-! ### Frames and finishes -/

/-- The engine registers other than CMD, STATUS and RES0-2 are unchanged. -/
structure EngineKept (s t : State) : Prop where
  cal   : t.cal = s.cal
  tFine : t.tFine = s.tFine
  tout  : t.tout = s.tout
  hout  : t.hout = s.hout
  pout  : t.pout = s.pout
  smode : t.smode = s.smode

/-- The values a command gives to `finish`, STATUS.CODE and RES0-2, are unchanged. -/
structure ResultsKept (s t : State) : Prop where
  code : t.code = s.code
  res0 : t.res0 = s.res0
  res1 : t.res1 = s.res1
  res2 : t.res2 = s.res2

/-- CMD, the parameters and what the host port has answered are unchanged. -/
structure EdgesKept (s t : State) : Prop where
  cmd     : t.cmd = s.cmd
  cfg     : t.cfg = s.cfg
  replies : t.replies = s.replies

/-- A command that ran from `s` has finished in `t`: outcome and results are those given, the sequencer is IDLE, the
inputs left are `rest`, and the history has grown by exactly the transactions `evs` and the finish with `t`'s registers
(R8, R25, R64). CMD and what belongs to the model's edges are unchanged. -/
structure Finished (s t : State) (c : Code) (r0 r1 r2 : Word) (evs : List Event) (rest : List Input) : Prop where
  code    : t.code = c
  res0    : t.res0 = r0
  res1    : t.res1 = r1
  res2    : t.res2 = r2
  seq     : t.seq = .idle
  inputs  : t.inputs = rest
  history : t.history = s.history ++ evs ++ [.finish (hostRegs t)]
  edges   : EdgesKept s t

/-! ### Transactions -/

/-- The reads of a command, address and count (20_memory R50). -/
def readsOf : Instr → List (Byte × Nat)
  | .begin => [(0xD0, 1), (0x88, 24), (0xA1, 1), (0xE1, 7)]
  | .reset => [(0xD0, 1), (0x88, 24), (0xA1, 1), (0xE1, 7)]
  | .modeGet => [(0xF4, 1)]
  | .modeSet _ => [(0xF4, 1)]
  | .osrSet a b => if a ≤ 2 ∧ b ≤ 5 then [(if a = 1 then 0xF2 else 0xF4, 1)] else []
  | .osrGet a _ => if a ≤ 2 then [(if a = 1 then 0xF2 else 0xF4, 1)] else []
  | .iirGet => [(0xF5, 1)]
  | .iirSet _ => [(0xF5, 1)]
  | .tsbGet => [(0xF5, 1)]
  | .tsbSet _ => [(0xF5, 1)]
  | .mtime _ => [(0xF5, 1), (0xF4, 1), (0xF2, 1)]
  | .read => [(0xF4, 1), (0xF3, 1), (0xF7, 8)]

/-- The registers a command writes (R50). -/
def writesOf : Instr → List Byte
  | .begin => []
  | .reset => [0xE0]
  | .modeGet => []
  | .modeSet _ => [0xF4]
  | .osrSet a b => if a ≤ 2 ∧ b ≤ 5 then [if a = 1 then 0xF2 else 0xF4] else []
  | .osrGet _ _ => []
  | .iirGet => []
  | .iirSet _ => [0xF5]
  | .tsbGet => []
  | .tsbSet _ => [0xF5]
  | .mtime _ => []
  | .read => [0xF4]

/-- The event is one the row of R50 allows the command: a read of as many bytes as were asked for, whose status is consulted
exactly for the identity read (R63); a write; or the finish. -/
def allowed (i : Instr) : Event → Bool
  | .read a n bs ack => (readsOf i).contains (a, n) && bs.length == n && ack.isSome == (a == 0xD0)
  | .write a v => (writesOf i).contains a && (a != 0xE0 || v == 0xB6)
  | .finish _ => true

/-- The event is a sensor-port transaction. -/
def Event.isTransaction : Event → Bool
  | .read _ _ _ _ => true
  | .write _ _ => true
  | .finish _ => false

/-- The read reaches only readable registers, and the write only writable ones, of the list of R27. -/
def reachesListed : Event → Bool
  | .read a n _ _ =>
    (List.range n).all fun k =>
      let r := a.toNat + k
      r == 0xD0 || r == 0xF2 || r == 0xF3 || r == 0xF4 || r == 0xF5 || (0xF7 ≤ r && r ≤ 0xFE)
        || (0x88 ≤ r && r ≤ 0x9F) || r == 0xA1 || (0xE1 ≤ r && r ≤ 0xE7)
  | .write a _ => a == 0xE0 || a == 0xF2 || a == 0xF4 || a == 0xF5
  | .finish _ => true

/-! ### What a step runs -/

/-- The command a step runs: the one in flight, or the one whose word the host writes to an IDLE engine's CMD. -/
def running (s : State) : Option Instr :=
  match s.seq, s.inputs with
  | .busy i _, .sensor _ _ :: _ => some i
  | .idle, .hostWrite addr width data :: _ =>
    match hostOffset s.cfg addr, decode data with
    | some off, .command i => if wordAccess off width && off == 0 then some i else none
    | _, _ => none
  | _, _ => none

/-- The answers of a run of status polls, each one byte with any transport status. -/
def pollAnswers (polls : List (Bool × Byte)) : List Input := polls.map (fun q => .sensor q.1 [q.2])

/-- The events of a run of status polls. -/
def pollEvents (polls : List (Bool × Byte)) : List Event := polls.map (fun q => .read 0xF3 1 [q.2] none)

/-- The answers to READ's first step and its events (R86, R88): nothing unless SMODE is forced; one read when the sensor's
mode field is not 00; else the read, and the field write of MODE.SET with SMODE (a read and a write). -/
def ReTrigger (s : State) (answers : List Input) (evs : List Event) : Prop :=
  (s.smode ≠ 1 ∧ s.smode ≠ 2 ∧ answers = [] ∧ evs = []) ∨
  ((s.smode = 1 ∨ s.smode = 2) ∧ ∃ ack b, b.extractLsb' 0 2 ≠ 0#2 ∧
    answers = [.sensor ack [b]] ∧ evs = [.read 0xF4 1 [b] none]) ∨
  ((s.smode = 1 ∨ s.smode = 2) ∧ ∃ ack b ack' old ack'' ws, b.extractLsb' 0 2 = 0#2 ∧
    answers = [.sensor ack [b], .sensor ack' [old], .sensor ack'' ws] ∧
    evs = [.read 0xF4 1 [b] none, .read 0xF4 1 [old] none,
      .write 0xF4 ((old &&& 0xFC) ||| s.smode.setWidth 8)])

/-! ### Host reads -/

/-- In the state `s`, a host read of `width` bits at offset `off` is answered with `v`, and nothing else happens. -/
def readsAs (s : State) (off width : Nat) (v : Word) : Prop :=
  ∀ rest, step { s with inputs := .hostRead (s.cfg.hostBase + off) width :: rest }
    = .next { s with inputs := rest, replies := s.replies ++ [v] }

/-! ### Numbers made of bytes -/

/-- The unsigned 16-bit number with low byte `lo` and high byte `hi`. -/
def u16Of (lo hi : Byte) : Nat := lo.toNat + 256 * hi.toNat

/-- The two's-complement number that the unsigned number `u` of `n` bits stands for. -/
def signedOf (n u : Nat) : Int := if u < 2 ^ (n - 1) then u else (u : Int) - 2 ^ n

end Sys2Proof.Machine
end

