-- ==== Sys2Proof/Certificates/Slice0/Obligations.lean ====
section
/-! DEFINITION. The statements about the CE, for the provers. Each docstring names the rules of spec/ it formalises. -/

open Sys2Proof Sys2Proof.Machine

/-! ### Reset -/

/-- R41: the power-on reset values of every CE register, written out. -/
def Obligations.PowerOnResetValues : Prop :=
  State.reset.seq = .idle ∧ State.reset.code = .ok ∧ State.reset.cmd = 0 ∧
  State.reset.res0 = 0 ∧ State.reset.res1 = 0 ∧ State.reset.res2 = 0 ∧
  State.reset.tFine = 0 ∧ State.reset.tout = 0 ∧ State.reset.hout = 0 ∧ State.reset.pout = 0 ∧
  State.reset.smode = 0 ∧
  State.reset.cal.t1 = 0 ∧ State.reset.cal.t2 = 0 ∧ State.reset.cal.t3 = 0 ∧ State.reset.cal.p1 = 0 ∧
  State.reset.cal.p2 = 0 ∧ State.reset.cal.p3 = 0 ∧ State.reset.cal.p4 = 0 ∧ State.reset.cal.p5 = 0 ∧
  State.reset.cal.p6 = 0 ∧ State.reset.cal.p7 = 0 ∧ State.reset.cal.p8 = 0 ∧ State.reset.cal.p9 = 0 ∧
  State.reset.cal.h1 = 0 ∧ State.reset.cal.h2 = 0 ∧ State.reset.cal.h3 = 0 ∧ State.reset.cal.h4 = 0 ∧
  State.reset.cal.h5 = 0 ∧ State.reset.cal.h6 = 0

/-- R126: asserting the CE's reset puts every piece of CE state at its value of R41, whatever is in flight, with no outcome
and no transaction. What stays is the model's (log entry 9): parameters, later inputs, what was observed. -/
def Obligations.PowerOnResetAtAnyTime : Prop :=
  ∀ (s : State) (rest : List Input), s.inputs = .powerOn :: rest →
    step s = .next { State.reset with cfg := s.cfg, inputs := rest, history := s.history, replies := s.replies }

/-! ### Encoding -/

/-- Every command whose operands fit their fields is decoded from its encoding, operands at every value of the fields
(R65-R69). -/
def Obligations.DecodeEncodeRoundTrip : Prop :=
  ∀ i : Instr, i.wf → decode (encode i) = .command i

/-- R66: a word is illegal exactly when RSV is not 0 or OP is none of the twelve opcodes. -/
def Obligations.IllegalWordsExactly : Prop :=
  ∀ w : Word, (∃ r, decode w = .rejected r) ↔
    (w.extractLsb' 16 8 ≠ 0#8 ∨ ¬ (1 ≤ (w.extractLsb' 24 8).toNat ∧ (w.extractLsb' 24 8).toNat ≤ 12))

/-- R66, R68: the word a command encodes to is the word it was decoded from, with the operand fields the command ignores
at 0. -/
def Obligations.EncodeDecodeDropsIgnoredFields : Prop :=
  ∀ (w : Word) (i : Instr), decode w = .command i → i.wf ∧ encode i = w &&&
    (match i with
      | .begin | .reset | .modeGet | .iirGet | .tsbGet | .read => 0xFFFF0000#32
      | .modeSet _ => 0xFFFFFF00#32
      | .iirSet _ => 0xFFFFFF00#32
      | .tsbSet _ => 0xFFFFFF00#32
      | .mtime _ => 0xFFFFFF00#32
      | .osrSet _ _ => 0xFFFFFFFF#32
      | .osrGet _ _ => 0xFFFFFFFF#32)

/-- Words written out from R67 and R69 decode to the commands they stand for. -/
def Obligations.WrittenWordsDecode : Prop :=
  decode 0x0100ABCD = .command .begin ∧ decode 0x02000000 = .command .reset ∧
  decode 0x0400FF00 = .command (.modeSet 0xFF) ∧ decode 0x05000203 = .command (.osrSet 2 3) ∧
  decode 0x06000301 = .command (.osrGet 3 1) ∧ decode 0x0B000100 = .command (.mtime 1) ∧
  decode 0x0C000001 = .command .read ∧ decode 0 = .rejected .undefinedOpcode ∧
  decode 0x05010000 = .rejected .reservedBits

/-- R69: assembler lines, the pseudo-instructions among them, encode to the words the rule and 95_test_vectors give. -/
def Obligations.AssemblerLinesEncode : Prop :=
  assembleWord "OSR.SET P, X4" = some 0x05000203 ∧ assembleWord "TRIGGER" = some 0x04000100 ∧
  assembleWord "SLEEP" = some 0x04000000 ∧ assembleWord "GETDATA ; read" = some 0x0C000000 ∧
  assembleWord "OSR.ACT P" = some 0x06000201 ∧ assembleWord "OSR.GET H" = some 0x06000100 ∧
  assembleWord "MTIME" = some 0x0B000000 ∧ assembleWord "MODE.SET 0xFF" = some 0x0400FF00

/-! ### The step -/

/-- R16, R17: a word written to CMD of an IDLE engine is stored, BUSY becomes 1, and the step runs the command the word
decodes to. -/
def Obligations.StepRunsDecodedCommand : Prop :=
  ∀ (s : State) (w : Word) (i : Instr) (rest : List Input),
    s.seq = .idle → s.inputs = .hostWrite s.cfg.hostBase 32 w :: rest → decode w = .command i →
      step s = exec i { s with inputs := rest, cmd := w, seq := .busy i .start }

/-- R16, R56: the sensor port's answer lets the command in flight go on from its position. The list of inputs is the
model's (log entry 1). -/
def Obligations.StepResumesCommandInFlight : Prop :=
  ∀ (s : State) (i : Instr) (p : Pos) (ack : Bool) (bs : List Byte) (rest : List Input),
    s.seq = .busy i p → s.inputs = .sensor ack bs :: rest → step s = exec i s

/-- R66, R110: an illegal word stored in CMD is raised ILLEGAL at once: results 0, no transaction, nothing else changes. -/
def Obligations.IllegalWordIsRaised : Prop :=
  ∀ (s : State) (w : Word) (rest : List Input),
    s.seq = .idle → s.inputs = .hostWrite s.cfg.hostBase 32 w :: rest →
    (w.extractLsb' 16 8 ≠ 0#8 ∨ (w.extractLsb' 24 8).toNat = 0 ∨ 13 ≤ (w.extractLsb' 24 8).toNat) →
      ∃ t, step s = .next t ∧ Finished { s with cmd := w } t .illegal 0 0 0 [] rest ∧ EngineKept s t

/-- R23, R24, R44: a host write while a command is in flight changes no state, wherever it goes and whatever it writes. That
an access outside the 256 bytes of the host space does nothing is the model's choice (log entry 8). -/
def Obligations.HostWriteDroppedWhileBusy : Prop :=
  ∀ (s : State) (i : Instr) (p : Pos) (addr width : Nat) (w : Word) (rest : List Input),
    s.seq = .busy i p → s.inputs = .hostWrite addr width w :: rest → step s = .next { s with inputs := rest }

/-- R23, R44: a host write to an offset other than 0x00, or not 32 bits wide, or while a command is in flight, changes no
state and starts nothing. -/
def Obligations.HostWriteElsewhereDoesNothing : Prop :=
  ∀ (s : State) (off width : Nat) (w : Word) (rest : List Input),
    off < 256 → (off ≠ 0 ∨ width ≠ 32 ∨ s.seq ≠ .idle) → s.inputs = .hostWrite (s.cfg.hostBase + off) width w :: rest →
      step s = .next { s with inputs := rest }

/-- R18, R21, R22: what a host word read returns at every listed offset, and that it changes nothing. That the value is
added to a list of replies is the model's choice (log entry 11). -/
def Obligations.HostReadsFollowTheMap : Prop :=
  ∀ s : State,
    readsAs s 0x00 32 s.cmd ∧
    readsAs s 0x04 32 (BitVec.ofNat 32
      (2 * (match s.code with | .ok => 0 | .failNodev => 1 | .failInvalid => 2 | .illegal => 3 | .timeout => 4)
        + if s.seq = .idle then 0 else 1)) ∧
    readsAs s 0x08 32 s.res0 ∧ readsAs s 0x0C 32 s.res1 ∧ readsAs s 0x10 32 s.res2 ∧
    readsAs s 0x14 32 s.tFine ∧ readsAs s 0x18 32 s.tout ∧ readsAs s 0x1C 32 s.hout ∧ readsAs s 0x20 32 s.pout ∧
    readsAs s 0x24 32 (s.smode.setWidth 32) ∧
    readsAs s 0x40 32 (s.cal.t1.setWidth 32) ∧ readsAs s 0x44 32 (s.cal.t2.signExtend 32) ∧
    readsAs s 0x48 32 (s.cal.t3.signExtend 32) ∧ readsAs s 0x4C 32 (s.cal.p1.setWidth 32) ∧
    readsAs s 0x50 32 (s.cal.p2.signExtend 32) ∧ readsAs s 0x54 32 (s.cal.p3.signExtend 32) ∧
    readsAs s 0x58 32 (s.cal.p4.signExtend 32) ∧ readsAs s 0x5C 32 (s.cal.p5.signExtend 32) ∧
    readsAs s 0x60 32 (s.cal.p6.signExtend 32) ∧ readsAs s 0x64 32 (s.cal.p7.signExtend 32) ∧
    readsAs s 0x68 32 (s.cal.p8.signExtend 32) ∧ readsAs s 0x6C 32 (s.cal.p9.signExtend 32) ∧
    readsAs s 0x70 32 (s.cal.h1.setWidth 32) ∧ readsAs s 0x74 32 (s.cal.h2.signExtend 32) ∧
    readsAs s 0x78 32 (s.cal.h3.setWidth 32) ∧ readsAs s 0x7C 32 (s.cal.h4.signExtend 32) ∧
    readsAs s 0x80 32 (s.cal.h5.signExtend 32) ∧ readsAs s 0x84 32 (s.cal.h6.signExtend 32)

/-- R21, R44: a host read that is not an aligned word read, or of an offset the map does not list, returns 0 and changes
nothing. -/
def Obligations.OtherHostReadsReturnZero : Prop :=
  ∀ (s : State) (off width : Nat), off < 256 →
    (width ≠ 32 ∨ off % 4 ≠ 0 ∨ (0x28 ≤ off ∧ off < 0x40) ∨ 0x88 ≤ off) → readsAs s off width 0

/-! ### BEGIN and RESET -/

/-- R70, R113: BEGIN, with its four reads answered and the identity right, completes: CAL holds the assembled bytes,
RES0 = 1, the reads are those of the rule in their order, and nothing else changes. It ends FAIL_NODEV when the identity
read's status is a failure, whatever the byte, or the byte is not 0x60: then no calibration read happens and no engine
register changes. The word is 0x01000000. -/
def Obligations.BeginChecksIdentityAndLoads : Prop :=
  encode .begin = 0x01000000 ∧ ∀ (s : State), s.pos = .start →
    (∀ (a1 a2 a3 : Bool) (c : List Byte) (h1 : Byte) (e : List Byte) (rest : List Input),
      c.length = 24 → e.length = 7 →
      s.inputs = .sensor true [0x60] :: .sensor a1 c :: .sensor a2 [h1] :: .sensor a3 e :: rest →
        ∃ t, exec .begin s = .next t ∧
          Finished s t .ok 1 0 0 [.read 0xD0 1 [0x60] (some true), .read 0x88 24 c none, .read 0xA1 1 [h1] none,
            .read 0xE1 7 e none] rest ∧
          t.cal = assemble c [h1] e ∧ EngineKept { s with cal := t.cal } t) ∧
    (∀ (ack : Bool) (id : Byte) (rest : List Input), (ack = false ∨ id ≠ 0x60) → s.inputs = .sensor ack [id] :: rest →
      ∃ t, exec .begin s = .next t ∧ Finished s t .failNodev 0 0 0 [.read 0xD0 1 [id] (some ack)] rest ∧
        EngineKept s t)

/-- R104, R108: RESET writes 0xB6 to 0xE0 and then does as BEGIN does, from BEGIN's first line; the write stays made when
the identity check fails. The word is 0x02000000. -/
def Obligations.ResetWritesCodeThenBegins : Prop :=
  encode .reset = 0x02000000 ∧ ∀ (s : State) (a0 : Bool) (ws : List Byte), s.pos = .start →
    (∀ (a1 a2 a3 : Bool) (c : List Byte) (h1 : Byte) (e : List Byte) (rest : List Input),
      c.length = 24 → e.length = 7 →
      s.inputs = .sensor a0 ws :: .sensor true [0x60] :: .sensor a1 c :: .sensor a2 [h1] :: .sensor a3 e :: rest →
        ∃ t, exec .reset s = .next t ∧
          Finished s t .ok 1 0 0 [.write 0xE0 0xB6, .read 0xD0 1 [0x60] (some true), .read 0x88 24 c none,
            .read 0xA1 1 [h1] none, .read 0xE1 7 e none] rest ∧
          t.cal = assemble c [h1] e ∧ EngineKept { s with cal := t.cal } t) ∧
    (∀ (ack : Bool) (id : Byte) (rest : List Input), (ack = false ∨ id ≠ 0x60) →
      s.inputs = .sensor a0 ws :: .sensor ack [id] :: rest →
        ∃ t, exec .reset s = .next t ∧
          Finished s t .failNodev 0 0 0 [.write 0xE0 0xB6, .read 0xD0 1 [id] (some ack)] rest ∧ EngineKept s t)

/-- R71: the number each of the 18 coefficients stands for, from the bytes read. -/
def Obligations.CoefficientsFromBytes : Prop :=
  ∀ (c h1 e : List Byte),
    let u (bs : List Byte) (k : Nat) := u16Of (byteAt bs k) (byteAt bs (k + 1))
    let r := assemble c h1 e
    r.t1.toNat = u c 0 ∧ r.t2.toInt = signedOf 16 (u c 2) ∧ r.t3.toInt = signedOf 16 (u c 4) ∧
    r.p1.toNat = u c 6 ∧ r.p2.toInt = signedOf 16 (u c 8) ∧ r.p3.toInt = signedOf 16 (u c 10) ∧
    r.p4.toInt = signedOf 16 (u c 12) ∧ r.p5.toInt = signedOf 16 (u c 14) ∧ r.p6.toInt = signedOf 16 (u c 16) ∧
    r.p7.toInt = signedOf 16 (u c 18) ∧ r.p8.toInt = signedOf 16 (u c 20) ∧ r.p9.toInt = signedOf 16 (u c 22) ∧
    r.h1.toNat = (byteAt h1 0).toNat ∧ r.h2.toInt = signedOf 16 (u e 0) ∧ r.h3.toNat = (byteAt e 2).toNat ∧
    r.h4.toInt = signedOf 12 ((byteAt e 3).toNat * 16 + (byteAt e 4).toNat % 16) ∧
    r.h5.toInt = signedOf 12 ((byteAt e 5).toNat * 16 + (byteAt e 4).toNat / 16) ∧
    r.h6.toInt = signedOf 8 (byteAt e 6).toNat

/-! ### The configuration mux -/

/-- R75, R76: writing a field changes the bits of the field to the value's and leaves every other bit as read, for each of
the six fields at its register, shift and width. -/
def Obligations.FieldWritesKeepOtherBits : Prop :=
  ∀ (f : Field) (r : Byte) (sh w : Nat),
    (f, r, sh, w) ∈ [(osrsT, 0xF4#8, 5, 3), (osrsH, 0xF2#8, 0, 3), (osrsP, 0xF4#8, 2, 3), (modeField, 0xF4#8, 0, 2),
      (filterField, 0xF5#8, 2, 3), (tsbField, 0xF5#8, 5, 3)] →
    f.reg = r ∧ ∀ (old v : Byte) (k : Nat), k < 8 →
      (fieldInsert f old v).getLsbD k = if sh ≤ k ∧ k < sh + w then v.getLsbD (k - sh) else old.getLsbD k

/-- R78: MODE.GET returns bits 1:0 of ctrl_meas, by one read, and changes no engine register. The word is 0x03000000. -/
def Obligations.ModeGetReturnsModeField : Prop :=
  encode .modeGet = 0x03000000 ∧ ∀ (s : State) (ack : Bool) (b : Byte) (rest : List Input), s.pos = .start → s.inputs = .sensor ack [b] :: rest →
    ∃ t, exec .modeGet s = .next t ∧
      Finished s t .ok ((b.extractLsb' 0 2).setWidth 32) 0 0 [.read 0xF4 1 [b] none] rest ∧ EngineKept s t

/-- R79: MODE.SET writes A[1:0] to bits 1:0 of ctrl_meas, records it in SMODE, returns it, and changes nothing else; all
256 operands. The word is 0x04000000 | (A << 8). -/
def Obligations.ModeSetWritesAndRecords : Prop :=
  (∀ a : Nat, a < 256 → encode (.modeSet a) = 0x04000000 ||| BitVec.ofNat 32 a <<< 8) ∧
  ∀ (s : State) (a : Nat) (ack ack' : Bool) (old : Byte) (ws : List Byte) (rest : List Input),
    s.pos = .start → s.inputs = .sensor ack [old] :: .sensor ack' ws :: rest →
      ∃ t, exec (.modeSet a) s = .next t ∧
        Finished s t .ok (BitVec.ofNat 32 (a % 4)) 0 0
          [.read 0xF4 1 [old] none, .write 0xF4 ((old &&& 0xFC) ||| BitVec.ofNat 8 (a % 4))] rest ∧
        t.smode = BitVec.ofNat 2 a ∧ EngineKept { s with smode := BitVec.ofNat 2 a } t

/-- R80, R77, R109: OSR.SET with a sensor 0-2 and a level 0-5 reads the quantity's register, writes it with only the field
changed, and returns 1. With any other operands it ends FAIL_INVALID with no transaction: no input is taken and no engine
register changes. The word is 0x05000000 | (A << 8) | B. -/
def Obligations.OsrSetValidatesAndWritesLevel : Prop :=
  (∀ a b : Nat, a < 256 → b < 256 →
    encode (.osrSet a b) = 0x05000000 ||| BitVec.ofNat 32 a <<< 8 ||| BitVec.ofNat 32 b) ∧
  (∀ (a : Nat) (r keep : Byte) (sh : Nat),
    (a, r, keep, sh) ∈ [(0, 0xF4#8, 0x1F#8, 5), (1, 0xF2#8, 0xF8#8, 0), (2, 0xF4#8, 0xE3#8, 2)] →
    ∀ (s : State) (b : Nat) (ack ack' : Bool) (old : Byte) (ws : List Byte) (rest : List Input),
      b ≤ 5 → s.pos = .start → s.inputs = .sensor ack [old] :: .sensor ack' ws :: rest →
        ∃ t, exec (.osrSet a b) s = .next t ∧
          Finished s t .ok 1 0 0
            [.read r 1 [old] none, .write r ((old &&& keep) ||| BitVec.ofNat 8 (b * 2 ^ sh))] rest ∧
          EngineKept s t) ∧
  (∀ (s : State) (a b : Nat), (2 < a ∨ 5 < b) →
    ∃ t, exec (.osrSet a b) s = .next t ∧ Finished s t .failInvalid 0 0 0 [] s.inputs ∧ EngineKept s t)

/-- R81, R37, R109: OSR.GET with a sensor 0-2 returns the quantity's 3-bit code when B is 0, and else its multiplier. With a
sensor above 2 it ends FAIL_INVALID with no transaction. The word is 0x06000000 | (A << 8) | B. -/
def Obligations.OsrGetReturnsCodeOrMultiplier : Prop :=
  (∀ a b : Nat, a < 256 → b < 256 →
    encode (.osrGet a b) = 0x06000000 ||| BitVec.ofNat 32 a <<< 8 ||| BitVec.ofNat 32 b) ∧
  (∀ (a : Nat) (r : Byte) (sh : Nat), (a, r, sh) ∈ [(0, 0xF4#8, 5), (1, 0xF2#8, 0), (2, 0xF4#8, 2)] →
    ∀ (s : State) (b : Nat) (ack : Bool) (v : Byte) (rest : List Input),
      s.pos = .start → s.inputs = .sensor ack [v] :: rest →
        ∃ t, exec (.osrGet a b) s = .next t ∧
          Finished s t .ok
            (BitVec.ofNat 32 (if b = 0 then v.toNat / 2 ^ sh % 8
              else [0, 1, 2, 4, 8, 16, 16, 16].getD (v.toNat / 2 ^ sh % 8) 0)) 0 0 [.read r 1 [v] none] rest ∧
          EngineKept s t) ∧
  (∀ (s : State) (a b : Nat), 2 < a →
    ∃ t, exec (.osrGet a b) s = .next t ∧ Finished s t .failInvalid 0 0 0 [] s.inputs ∧ EngineKept s t)

/-- R82, R84: IIR.GET returns bits 4:2 and TSB.GET bits 7:5 of config, by one read, and change no engine register.
The words are 0x07000000 and 0x09000000. -/
def Obligations.ConfigGettersReturnCodes : Prop :=
  encode .iirGet = 0x07000000 ∧ encode .tsbGet = 0x09000000 ∧
  ∀ (i : Instr) (sh : Nat), (i, sh) ∈ [(Instr.iirGet, 2), (Instr.tsbGet, 5)] →
    ∀ (s : State) (ack : Bool) (b : Byte) (rest : List Input), s.pos = .start → s.inputs = .sensor ack [b] :: rest →
      ∃ t, exec i s = .next t ∧
        Finished s t .ok ((b.extractLsb' sh 3).setWidth 32) 0 0 [.read 0xF5 1 [b] none] rest ∧ EngineKept s t

/-- R83, R85: IIR.SET writes A[2:0] to bits 4:2 and TSB.SET to bits 7:5 of config, return it, and change no engine
register; all 256 operands. The words are 0x08000000 | (A << 8) and 0x0A000000 | (A << 8). -/
def Obligations.ConfigSettersWriteCodes : Prop :=
  (∀ a : Nat, a < 256 → encode (.iirSet a) = 0x08000000 ||| BitVec.ofNat 32 a <<< 8 ∧
    encode (.tsbSet a) = 0x0A000000 ||| BitVec.ofNat 32 a <<< 8) ∧
  ∀ (i : Nat → Instr) (keep : Byte) (sh : Nat),
    ((i = Instr.iirSet ∧ keep = 0xE3 ∧ sh = 2) ∨ (i = Instr.tsbSet ∧ keep = 0x1F ∧ sh = 5)) →
    ∀ (s : State) (a : Nat) (ack ack' : Bool) (old : Byte) (ws : List Byte) (rest : List Input),
      s.pos = .start → s.inputs = .sensor ack [old] :: .sensor ack' ws :: rest →
        ∃ t, exec (i a) s = .next t ∧
          Finished s t .ok (BitVec.ofNat 32 (a % 8)) 0 0
            [.read 0xF5 1 [old] none, .write 0xF5 ((old &&& keep) ||| BitVec.ofNat 8 (a % 8 * 2 ^ sh))] rest ∧
          EngineKept s t

/-- 95_test_vectors P-1 and P-4: on a sensor that keeps the byte a setter wrote, the getter returns what was set. -/
def Obligations.SetThenGetReturnsTheSetting : Prop :=
  ∀ (set get : Instr) (v : Nat),
    ((∃ a b, a ≤ 2 ∧ b ≤ 5 ∧ set = .osrSet a b ∧ get = .osrGet a 0 ∧ v = b) ∨
      (∃ a, set = .modeSet a ∧ get = .modeGet ∧ v = a % 4) ∨
      (∃ a, set = .iirSet a ∧ get = .iirGet ∧ v = a % 8) ∨
      (∃ a, set = .tsbSet a ∧ get = .tsbGet ∧ v = a % 8)) →
    ∀ (s t u : State) (r kept : Byte) (before : List Event) (fin : Event) (ack : Bool) (rest : List Input),
      exec set s = .next t → t.history = before ++ [.write r kept, fin] → t.seq = .idle →
      s.history.length ≤ before.length → u.pos = .start → u.inputs = .sensor ack [kept] :: rest →
        ∃ t', exec get u = .next t' ∧ t'.code = .ok ∧ t'.res0 = BitVec.ofNat 32 v

/-! ### MTIME -/

/-- R99, R100: MTIME reads config, ctrl_meas and ctrl_hum in that order and returns the sum of the standby delay and, for
each quantity that is on, its multiplier times the per-sample time plus its overhead; the constant set is chosen by A. The word is
0x0B000000 | (A << 8). -/
def Obligations.MtimeComputesDuration : Prop :=
  (∀ a : Nat, a < 256 → encode (.mtime a) = 0x0B000000 ||| BitVec.ofNat 32 a <<< 8) ∧
  ∀ (s : State) (a : Nat) (a1 a2 a3 : Bool) (f5 f4 f2 : Byte) (rest : List Input),
    s.pos = .start → s.inputs = .sensor a1 [f5] :: .sensor a2 [f4] :: .sensor a3 [f2] :: rest →
      let k := if a = 0 then s.cfg.typ else s.cfg.max
      let mult (code : BitVec 3) : Nat := [0, 1, 2, 4, 8, 16, 16, 16].getD code.toNat 0
      let term (code : BitVec 3) (overhead : Nat) : Nat :=
        if mult code = 0 then 0 else mult code * k.perSample + overhead
      ∃ t, exec (.mtime a) s = .next t ∧
        Finished s t .ok
          (BitVec.ofNat 32 (s.cfg.tSbUs[(f5.extractLsb' 5 3).toNat] + term (f4.extractLsb' 5 3) k.overT
            + term (f4.extractLsb' 2 3) k.overP + term (f2.extractLsb' 0 3) k.overH)) 0 0
          [.read 0xF5 1 [f5] none, .read 0xF4 1 [f4] none, .read 0xF2 1 [f2] none] rest ∧
        EngineKept s t

/-- R102: for each quantity, the other codes fixed, the duration does not decrease with the oversampling code, for any
constants whose sum stays below 2^32. The spec marks it as derived from R100 and R37. -/
def Obligations.DurationIsMonotone : Prop :=
  ∀ (cfg : Config) (k : TimingSet) (tsb ct ct' cp cp' ch ch' : BitVec 3),
    ct ≤ ct' → cp ≤ cp' → ch ≤ ch' → measSum cfg k tsb ct' cp' ch' < 2 ^ 32 →
      measTime cfg k tsb ct cp ch ≤ measTime cfg k tsb ct' cp' ch'

/-! ### READ -/

/-- R86, R88, R89: READ with its transactions answered (the re-trigger as its case has it, any number of busy polls below a
finite POLL_LIMIT, a poll with both bits 0, the burst) completes: temperature first, pressure and humidity from the new
t_fine, all four registers and RES0-2 written, nothing else changed. -/
def Obligations.ReadDeliversReading : Prop :=
  ∀ (s : State) (trig : List Input) (trigEvs : List Event) (polls : List (Bool × Byte)) (ack ack' : Bool) (st : Byte)
    (d : List Byte) (rest : List Input),
    s.pos = .start → s.cfg.ovf = .wrap → ReTrigger s trig trigEvs →
    (∀ q ∈ polls, q.2 &&& 0x09 ≠ 0) → (∀ k, s.cfg.pollLimit = some k → polls.length < k) →
    st &&& 0x09 = 0 → d.length = 8 →
    s.inputs = trig ++ pollAnswers polls ++ .sensor ack [st] :: .sensor ack' d :: rest →
      ∃ t, exec .read s = .next t ∧
        t.tFine = (compT s.cal (adcT d)).1 ∧ t.tout = (compT s.cal (adcT d)).2 ∧
        t.hout = compH s.cal (adcH d) t.tFine ∧ t.pout = compP s.cal (adcP d) t.tFine ∧
        Finished s t .ok t.tout t.hout t.pout
          (trigEvs ++ pollEvents polls ++ [.read 0xF3 1 [st] none, .read 0xF7 8 d none]) rest ∧
        t.cal = s.cal ∧ t.smode = s.smode

/-- R89, R86: with a finite POLL_LIMIT k, the k-th busy poll ends READ with TIMEOUT after exactly k reads of 0xF3; no engine
register changes, and a re-trigger write stays made. -/
def Obligations.ReadTimesOut : Prop :=
  ∀ (s : State) (k : Nat) (trig : List Input) (trigEvs : List Event) (polls : List (Bool × Byte)) (rest : List Input),
    s.pos = .start → ReTrigger s trig trigEvs → s.cfg.pollLimit = some k → 1 ≤ k → polls.length = k →
    (∀ q ∈ polls, q.2 &&& 0x09 ≠ 0) → s.inputs = trig ++ pollAnswers polls ++ rest →
      ∃ t, exec .read s = .next t ∧ Finished s t .timeout 0 0 0 (trigEvs ++ pollEvents polls) rest ∧ EngineKept s t

/-- R89, R111: with POLL_LIMIT = UNBOUNDED a sensor that stays busy for all its answers leaves READ in flight, BUSY, with no
register written; and when no input ever comes the machine is stuck (how a hang shows: log entry 3). -/
def Obligations.ReadPollsForEver : Prop :=
  ∀ (s : State) (trig : List Input) (trigEvs : List Event) (polls : List (Bool × Byte)),
    s.pos = .start → ReTrigger s trig trigEvs → s.cfg.pollLimit = none →
    (∀ q ∈ polls, q.2 &&& 0x09 ≠ 0) → s.inputs = trig ++ pollAnswers polls →
      ∃ t, exec .read s = .next t ∧ t.seq = .busy .read (.poll polls.length) ∧ t.inputs = [] ∧
        t.history = s.history ++ trigEvs ++ pollEvents polls ∧ EngineKept s t ∧ ResultsKept s t ∧ EdgesKept s t ∧
        step t = .fault .hang

/-- R5 (OVF_MODEL = fault), R98: the model stops READ with a fault exactly when an intermediate of the reading leaves its
width. The stop is the model's (log entry 12). -/
def Obligations.FaultModelStopsExactlyOnOverflow : Prop :=
  ∀ (s : State) (ack : Bool) (d : List Byte) (rest : List Input),
    s.pos = .burst → s.cfg.ovf = .fault → d.length = 8 → s.inputs = .sensor ack d :: rest →
      (noOverflow s.cal (adcT d).toInt (adcP d).toInt (adcH d).toInt = false →
        exec .read s = .fault .intermediateOverflow) ∧
      (noOverflow s.cal (adcT d).toInt (adcP d).toInt (adcH d).toInt = true →
        ∃ t, exec .read s = .next t ∧ t.code = .ok ∧ t.tFine = fineTemp s.cal (adcT d))

/-- R87, R133: READ's results do not depend on what T_FINE, TOUT, HOUT and POUT held before it. -/
def Obligations.ReadIgnoresEarlierReadings : Prop :=
  ∀ (s t : State) (f x y z : Word), exec .read s = .next t → t.seq = .idle → t.code = .ok →
    ∃ t', exec .read { s with tFine := f, tout := x, hout := y, pout := z } = .next t' ∧ t'.seq = .idle ∧
      t'.code = .ok ∧ t'.tFine = t.tFine ∧ t'.tout = t.tout ∧ t'.hout = t.hout ∧ t'.pout = t.pout ∧
      t'.res0 = t.res0 ∧ t'.res1 = t.res1 ∧ t'.res2 = t.res2 ∧ t'.inputs = t.inputs

/-! ### The datapath -/

/-- R90: the raw values of a burst as numbers. -/
def Obligations.RawValuesFromBurst : Prop :=
  ∀ d : List Byte,
    (adcP d).toNat = (byteAt d 0).toNat * 4096 + (byteAt d 1).toNat * 16 + (byteAt d 2).toNat / 16 ∧
    (adcT d).toNat = (byteAt d 3).toNat * 4096 + (byteAt d 4).toNat * 16 + (byteAt d 5).toNat / 16 ∧
    (adcH d).toNat = (byteAt d 6).toNat * 256 + (byteAt d 7).toNat

/-- R91 in the arithmetic of R7: CompT on integers, every `+`, `-`, `*` and `<<` reduced by wrap32. -/
def Obligations.CompTIsInt32Arithmetic : Prop :=
  ∀ (c : Cal) (adc : Word),
    let a := adc.toInt
    let t1 : Int := c.t1.toNat
    let t2 := c.t2.toInt
    let t3 := c.t3.toInt
    let var1 := wrap32 (wrap32 (a / 2 ^ 3 - wrap32 (t1 * 2)) * t2) / 2 ^ 11
    let var2 := wrap32 (wrap32 (wrap32 (a / 2 ^ 4 - t1) * wrap32 (a / 2 ^ 4 - t1)) / 2 ^ 12 * t3) / 2 ^ 14
    let tFine := wrap32 (var1 + var2)
    (compT c adc).1.toInt = tFine ∧ (compT c adc).2.toInt = wrap32 (wrap32 (tFine * 5) + 128) / 2 ^ 8

/-- R92, R93, R94 in the arithmetic of R7: CompP on integers, every `+`, `-`, `*`, `<<` and `/` reduced by wrap64. -/
def Obligations.CompPIsInt64Arithmetic : Prop :=
  ∀ (c : Cal) (adc tFine : Word),
    let p1 : Int := c.p1.toNat
    let v := wrap64 (tFine.toInt - 128000)
    let var2 := wrap64 (wrap64 (v * v) * c.p6.toInt)
    let var2 := wrap64 (var2 + wrap64 (wrap64 (v * c.p5.toInt) * 2 ^ 17))
    let var2 := wrap64 (var2 + wrap64 (c.p4.toInt * 2 ^ 35))
    let var1 := wrap64 (wrap64 (wrap64 (v * v) * c.p3.toInt) / 2 ^ 8 + wrap64 (wrap64 (v * c.p2.toInt) * 2 ^ 12))
    let var1 := wrap64 (wrap64 (2 ^ 47 + var1) * p1) / 2 ^ 33
    let p := wrap64 (1048576 - adc.toInt)
    let p := wrap64 ((wrap64 (wrap64 (wrap64 (p * 2 ^ 31) - var2) * 3125)).tdiv var1)
    let x := wrap64 (wrap64 (c.p9.toInt * (p / 2 ^ 13)) * (p / 2 ^ 13)) / 2 ^ 25
    let y := wrap64 (c.p8.toInt * p) / 2 ^ 19
    let p := wrap64 (wrap64 (wrap64 (p + x) + y) / 2 ^ 8 + wrap64 (c.p7.toInt * 2 ^ 4))
    (compP c adc tFine).toInt = if var1 = 0 then 0 else wrap32 (p / 2 ^ 8)

/-- R95, R96 in the arithmetic of R7: CompH on integers, then the clamp and the output stage. -/
def Obligations.CompHIsInt32Arithmetic : Prop :=
  ∀ (c : Cal) (adc tFine : Word),
    let h1 : Int := c.h1.toNat
    let h3 : Int := c.h3.toNat
    let v := wrap32 (tFine.toInt - 76800)
    let l := wrap32 (wrap32 (wrap32 (wrap32 (adc.toInt * 2 ^ 14) - wrap32 (c.h4.toInt * 2 ^ 20))
      - wrap32 (c.h5.toInt * v)) + 16384) / 2 ^ 15
    let m := wrap32 (wrap32 (v * h3) / 2 ^ 11 + 32768)
    let m := wrap32 (wrap32 (wrap32 (v * c.h6.toInt) / 2 ^ 10 * m) / 2 ^ 10 + 2097152)
    let r := wrap32 (wrap32 (m * c.h2.toInt) + 8192) / 2 ^ 14
    let x := wrap32 (l * r)
    let x := wrap32 (x - wrap32 (wrap32 (x / 2 ^ 15 * (x / 2 ^ 15)) / 2 ^ 7 * h1) / 2 ^ 4)
    let x := if x < 0 then 0 else if 419430400 < x then 419430400 else x
    ((compH c adc tFine).toNat : Int) = x / 2 ^ 12 * 100 / 1024

/-- R93: P1 = 0 makes the denominator 0, and CompP returns 0 for every burst. -/
def Obligations.ZeroDenominatorGivesZero : Prop :=
  ∀ (c : Cal) (adc tFine : Word), (c.p1 = 0 → pressDen c tFine = 0) ∧ (pressDen c tFine = 0 → compP c adc tFine = 0)

/-- R96: H never exceeds 10000, and the clamp's corners. -/
def Obligations.HumidityIsBounded : Prop :=
  (∀ (c : Cal) (adc tFine : Word), (compH c adc tFine).toNat ≤ 10000) ∧
  (∀ v : Word, v.toInt < 0 → humOut v = 0) ∧ (∀ v : Word, 419430400 ≤ v.toInt → humOut v = 10000)

/-- R98: where no intermediate leaves its width, the CE's results are those of the rules on mathematical integers. Which
values count as intermediates is the model's choice (log entry 12). -/
def Obligations.AgreesWithReference : Prop :=
  ∀ (c : Cal) (at_ ap ah : Word), noOverflow c at_.toInt ap.toInt ah.toInt = true →
    let f := (refFine c at_.toInt).value
    (compT c at_).1.toInt = f ∧ (compT c at_).2.toInt = (refTemp f).value ∧
    (compP c ap (compT c at_).1).toInt = (refPress c ap.toInt f).value ∧
    ((compH c ah (compT c at_).1).toNat : Int) = refHumOut (refHumRaw c ah.toInt f).value

/-- R130, 95_test_vectors V-T05: the power-on CAL of zeros gives T = 0, P = 0 and H = 0 for every burst. The spec
marks it as derived. -/
def Obligations.ZeroCalibrationReadsZero : Prop :=
  ∀ a : Word, compT Cal.zero a = (0, 0) ∧ (∀ f : Word, compP Cal.zero a f = 0) ∧ (∀ f : Word, compH Cal.zero a f = 0)

/-! ### Invariants and whole-machine rules -/

/-- The invariant holds after power-on reset (R41). -/
def Obligations.InvariantHoldsAtReset : Prop := Inv State.reset

/-- The invariant is kept by every step: H4 and H5 stay sext12 values (R11), HOUT stays at most 10000 (R96), and what is in
flight is the command CMD encodes, at a position of its own rule with the bytes read so far (R16, R17, R24, R40). -/
def Obligations.StepKeepsInvariant : Prop :=
  ∀ s t : State, Inv s → step s = .next t → Inv t

/-- R12: CAL is written only by the calibration load of a successful BEGIN or RESET (or the power-on reset). -/
def Obligations.OnlyCalibrationLoadWritesCal : Prop :=
  ∀ s t : State, step s = .next t → t.cal ≠ s.cal →
    (∃ rest, s.inputs = .powerOn :: rest) ∨
    ((running s = some .begin ∨ running s = some .reset) ∧ t.seq = .idle ∧ t.code = .ok ∧ t.res0 = 1)

/-- R15: SMODE is written only by MODE.SET, with the code it wrote (or the power-on reset). -/
def Obligations.OnlyModeSetWritesSmode : Prop :=
  ∀ s t : State, step s = .next t → t.smode ≠ s.smode →
    (∃ rest, s.inputs = .powerOn :: rest) ∨
    (∃ a, running s = some (.modeSet a) ∧ t.seq = .idle ∧ t.code = .ok ∧ t.smode = BitVec.ofNat 2 a)

/-- R13, R14: T_FINE, TOUT, HOUT and POUT are written only at READ completion (or by the power-on reset). -/
def Obligations.OnlyReadWritesReadings : Prop :=
  ∀ s t : State, step s = .next t → (t.tFine ≠ s.tFine ∨ t.tout ≠ s.tout ∨ t.hout ≠ s.hout ∨ t.pout ≠ s.pout) →
    (∃ rest, s.inputs = .powerOn :: rest) ∨
    (running s = some .read ∧ t.seq = .idle ∧ t.code = .ok ∧ t.res0 = t.tout ∧ t.res1 = t.hout ∧ t.res2 = t.pout)

/-- R115, R25: a command that ends with a failure outcome leaves every engine register except STATUS and RES0-2 as it was,
and writes 0 to RES0-2. -/
def Obligations.FailuresLeaveEngineRegisters : Prop :=
  ∀ (i : Instr) (s t : State), exec i s = .next t → t.seq = .idle → t.code ≠ .ok →
    EngineKept s t ∧ t.res0 = 0 ∧ t.res1 = 0 ∧ t.res2 = 0

/-- R25, R61: while a command is in flight after a step, no engine register, outcome or result has changed: a host read
returns the values of the previous command. -/
def Obligations.NothingCommitsWhileBusy : Prop :=
  ∀ s t : State, step s = .next t → t.seq ≠ .idle → EngineKept s t ∧ ResultsKept s t

/-- R50, R63: a command performs only the transactions of its row, and the transport status is consulted exactly for the
identity read. -/
def Obligations.CommandsPerformOnlyTheirTransactions : Prop :=
  ∀ (i : Instr) (s t : State), exec i s = .next t →
    ∃ evs, t.history = s.history ++ evs ∧ ∀ e ∈ evs, allowed i e = true

/-- R27, R46: no step reaches a sensor register that R27 does not list. -/
def Obligations.StepReachesOnlyListedRegisters : Prop :=
  ∀ s t : State, step s = .next t → ∃ evs, t.history = s.history ++ evs ∧ ∀ e ∈ evs, reachesListed e = true

/-- R16, R56: in every state with the invariant, a command in flight has exactly one transaction outstanding, and the answer
of the sensor port completes that one before any other. The list of inputs, and that an answer of the wrong length is dropped, are the model's
(log entries 1 and 5). -/
def Obligations.AnswerCompletesOutstandingTransaction : Prop :=
  ∀ s : State, Inv s → s.seq ≠ .idle →
    ∃ r, s.request = some r ∧
      ∀ (ack : Bool) (bs : List Byte) (rest : List Input) (t : State),
        s.inputs = .sensor ack bs :: rest → (∀ a n, r = .read a n → bs.length = n) → step s = .next t →
          ∃ e evs, t.history = s.history ++ e :: evs ∧ e.completes r = true

/-- R62, R111: a command in flight with no input ever to come is a stuck state (how a hang shows: log entry 3). -/
def Obligations.UnansweredTransactionHangs : Prop :=
  ∀ (s : State) (i : Instr) (p : Pos), s.seq = .busy i p → s.inputs = [] → step s = .fault .hang

/-- R126: an IDLE engine waits for the host (what "waits" is as a step: log entry 4). -/
def Obligations.IdleEngineWaits : Prop :=
  ∀ s : State, s.seq = .idle → s.inputs = [] → step s = .next s

/-- R97, R107, R112: with OVF_MODEL = wrap no command ever faults or is refused, whatever its operands, the calibration and
the answers. -/
def Obligations.CommandsNeverStop : Prop :=
  ∀ (i : Instr) (s : State), s.cfg.ovf = .wrap → ∃ t, exec i s = .next t

/-- Running a command over some answers and going on later is the same as running it over all of them at once: each answer
completed one transaction and the command waits (R16, R56; the batching of a step is log entry 2). -/
def Obligations.ResumingIsSeamless : Prop :=
  ∀ (i : Instr) (s t : State) (p : Pos) (answers later : List Input),
    (∀ x ∈ answers, ∃ ack bs, x = Input.sensor ack bs) →
    exec i { s with inputs := answers } = .next t → t.seq = .busy i p → t.inputs = [] →
    t.history.length = s.history.length + answers.length →
      exec i { s with inputs := answers ++ later } = exec i { t with inputs := later }

/-- The parameters never change (R5; that they stand in State is log entry 7). -/
def Obligations.ParametersNeverChange : Prop :=
  ∀ s t : State, step s = .next t → t.cfg = s.cfg

/-- Every step from a state with the invariant takes at least one input, in order (the list of inputs is log entry 1). -/
def Obligations.StepTakesAnInput : Prop :=
  ∀ s t : State, Inv s → s.inputs ≠ [] → step s = .next t →
    ∃ taken, taken ≠ [] ∧ s.inputs = taken ++ t.inputs
end

