-- ==== Sys2Proof/Laws/Encoding.lean ====
section
/-! SUPPORT. A command word as a number, and its fields. -/

namespace Sys2Proof

/-- Putting bits together as a number. -/
theorem toNat_append_add {n m : Nat} (x : BitVec n) (y : BitVec m) : (x ++ y).toNat = x.toNat * 2 ^ m + y.toNat := by
  rw [BitVec.toNat_append, ← Nat.shiftLeft_add_eq_or_of_lt y.isLt, Nat.shiftLeft_eq]

/-- The encoder's word as a number (R65). -/
theorem encode_toNat (i : Instr) :
    (encode i).toNat = opcode i % 256 * 2 ^ 24 + operandA i % 256 * 2 ^ 8 + operandB i % 256 := by
  unfold encode
  rw [toNat_append_add, toNat_append_add, toNat_append_add]
  simp only [BitVec.toNat_ofNat]
  omega

/-- The fields of a word as numbers (R65). -/
theorem fields_toNat (w : Word) :
    opField w = w.toNat / 2 ^ 24 ∧ rsvField w = w.toNat / 2 ^ 16 % 256 ∧ aField w = w.toNat / 2 ^ 8 % 256 ∧
      bField w = w.toNat % 256 := by
  have h := w.isLt
  unfold opField rsvField aField bField
  simp only [BitVec.extractLsb'_toNat, Nat.shiftRight_eq_div_pow]
  refine ⟨?_, trivial, trivial, ?_⟩ <;> omega

/-- The fields of the encoder's word: the opcode, 0, and the operands (R65, R69). -/
theorem fields_encode {i : Instr} (h : i.wf) :
    opField (encode i) = opcode i ∧ rsvField (encode i) = 0 ∧ aField (encode i) = operandA i ∧
      bField (encode i) = operandB i := by
  obtain ⟨ho, hr, ha, hb⟩ := fields_toNat (encode i)
  rw [ho, hr, ha, hb, encode_toNat]
  have h1 : opcode i ≤ 12 := by cases i <;> simp [opcode]
  have h2 : operandA i < 256 := by cases i <;> simp [operandA] <;> first | exact h | exact h.1
  have h3 : operandB i < 256 := by cases i <;> simp [operandB] <;> exact h.2
  omega

end Sys2Proof
end

