-- ==== Sys2Proof/Laws/State.lean ====
section
/-! SUPPORT. One lemma per field of State and per state update of the model, each true by rfl: later proofs cite these
instead of unfolding a record update. -/

namespace Sys2Proof.Machine

/-! ### record -/

@[simp] theorem record_cfg (e : Event) (s : State) : (record e s).cfg = s.cfg := rfl
@[simp] theorem record_cal (e : Event) (s : State) : (record e s).cal = s.cal := rfl
@[simp] theorem record_tFine (e : Event) (s : State) : (record e s).tFine = s.tFine := rfl
@[simp] theorem record_tout (e : Event) (s : State) : (record e s).tout = s.tout := rfl
@[simp] theorem record_hout (e : Event) (s : State) : (record e s).hout = s.hout := rfl
@[simp] theorem record_pout (e : Event) (s : State) : (record e s).pout = s.pout := rfl
@[simp] theorem record_smode (e : Event) (s : State) : (record e s).smode = s.smode := rfl
@[simp] theorem record_cmd (e : Event) (s : State) : (record e s).cmd = s.cmd := rfl
@[simp] theorem record_code (e : Event) (s : State) : (record e s).code = s.code := rfl
@[simp] theorem record_res0 (e : Event) (s : State) : (record e s).res0 = s.res0 := rfl
@[simp] theorem record_res1 (e : Event) (s : State) : (record e s).res1 = s.res1 := rfl
@[simp] theorem record_res2 (e : Event) (s : State) : (record e s).res2 = s.res2 := rfl
@[simp] theorem record_seq (e : Event) (s : State) : (record e s).seq = s.seq := rfl
@[simp] theorem record_inputs (e : Event) (s : State) : (record e s).inputs = s.inputs := rfl
@[simp] theorem record_history (e : Event) (s : State) : (record e s).history = s.history ++ [e] := rfl
@[simp] theorem record_replies (e : Event) (s : State) : (record e s).replies = s.replies := rfl

/-! ### waitAt -/

@[simp] theorem waitAt_cfg (i : Instr) (p : Pos) (s : State) : (waitAt i p s).cfg = s.cfg := rfl
@[simp] theorem waitAt_cal (i : Instr) (p : Pos) (s : State) : (waitAt i p s).cal = s.cal := rfl
@[simp] theorem waitAt_tFine (i : Instr) (p : Pos) (s : State) : (waitAt i p s).tFine = s.tFine := rfl
@[simp] theorem waitAt_tout (i : Instr) (p : Pos) (s : State) : (waitAt i p s).tout = s.tout := rfl
@[simp] theorem waitAt_hout (i : Instr) (p : Pos) (s : State) : (waitAt i p s).hout = s.hout := rfl
@[simp] theorem waitAt_pout (i : Instr) (p : Pos) (s : State) : (waitAt i p s).pout = s.pout := rfl
@[simp] theorem waitAt_smode (i : Instr) (p : Pos) (s : State) : (waitAt i p s).smode = s.smode := rfl
@[simp] theorem waitAt_cmd (i : Instr) (p : Pos) (s : State) : (waitAt i p s).cmd = s.cmd := rfl
@[simp] theorem waitAt_code (i : Instr) (p : Pos) (s : State) : (waitAt i p s).code = s.code := rfl
@[simp] theorem waitAt_res0 (i : Instr) (p : Pos) (s : State) : (waitAt i p s).res0 = s.res0 := rfl
@[simp] theorem waitAt_res1 (i : Instr) (p : Pos) (s : State) : (waitAt i p s).res1 = s.res1 := rfl
@[simp] theorem waitAt_res2 (i : Instr) (p : Pos) (s : State) : (waitAt i p s).res2 = s.res2 := rfl
@[simp] theorem waitAt_seq (i : Instr) (p : Pos) (s : State) : (waitAt i p s).seq = .busy i p := rfl
@[simp] theorem waitAt_inputs (i : Instr) (p : Pos) (s : State) : (waitAt i p s).inputs = s.inputs := rfl
@[simp] theorem waitAt_history (i : Instr) (p : Pos) (s : State) : (waitAt i p s).history = s.history := rfl
@[simp] theorem waitAt_replies (i : Instr) (p : Pos) (s : State) : (waitAt i p s).replies = s.replies := rfl

/-! ### finish -/

@[simp] theorem finish_cfg (c : Code) (r0 r1 r2 : Word) (s : State) : (finish c r0 r1 r2 s).cfg = s.cfg := rfl
@[simp] theorem finish_cal (c : Code) (r0 r1 r2 : Word) (s : State) : (finish c r0 r1 r2 s).cal = s.cal := rfl
@[simp] theorem finish_tFine (c : Code) (r0 r1 r2 : Word) (s : State) : (finish c r0 r1 r2 s).tFine = s.tFine := rfl
@[simp] theorem finish_tout (c : Code) (r0 r1 r2 : Word) (s : State) : (finish c r0 r1 r2 s).tout = s.tout := rfl
@[simp] theorem finish_hout (c : Code) (r0 r1 r2 : Word) (s : State) : (finish c r0 r1 r2 s).hout = s.hout := rfl
@[simp] theorem finish_pout (c : Code) (r0 r1 r2 : Word) (s : State) : (finish c r0 r1 r2 s).pout = s.pout := rfl
@[simp] theorem finish_smode (c : Code) (r0 r1 r2 : Word) (s : State) : (finish c r0 r1 r2 s).smode = s.smode := rfl
@[simp] theorem finish_cmd (c : Code) (r0 r1 r2 : Word) (s : State) : (finish c r0 r1 r2 s).cmd = s.cmd := rfl
@[simp] theorem finish_code (c : Code) (r0 r1 r2 : Word) (s : State) : (finish c r0 r1 r2 s).code = c := rfl
@[simp] theorem finish_res0 (c : Code) (r0 r1 r2 : Word) (s : State) : (finish c r0 r1 r2 s).res0 = r0 := rfl
@[simp] theorem finish_res1 (c : Code) (r0 r1 r2 : Word) (s : State) : (finish c r0 r1 r2 s).res1 = r1 := rfl
@[simp] theorem finish_res2 (c : Code) (r0 r1 r2 : Word) (s : State) : (finish c r0 r1 r2 s).res2 = r2 := rfl
@[simp] theorem finish_seq (c : Code) (r0 r1 r2 : Word) (s : State) : (finish c r0 r1 r2 s).seq = .idle := rfl
@[simp] theorem finish_inputs (c : Code) (r0 r1 r2 : Word) (s : State) : (finish c r0 r1 r2 s).inputs = s.inputs := rfl
@[simp] theorem finish_replies (c : Code) (r0 r1 r2 : Word) (s : State) : (finish c r0 r1 r2 s).replies = s.replies := rfl

/-- The finish event carries the registers of the state it leaves: the history is no host-visible register. -/
@[simp] theorem finish_history (c : Code) (r0 r1 r2 : Word) (s : State) :
    (finish c r0 r1 r2 s).history = s.history ++ [.finish (hostRegs (finish c r0 r1 r2 s))] := rfl

/-! ### raise -/

@[simp] theorem raise_cfg (c : Code) (s : State) : (raise c s).cfg = s.cfg := rfl
@[simp] theorem raise_cal (c : Code) (s : State) : (raise c s).cal = s.cal := rfl
@[simp] theorem raise_tFine (c : Code) (s : State) : (raise c s).tFine = s.tFine := rfl
@[simp] theorem raise_tout (c : Code) (s : State) : (raise c s).tout = s.tout := rfl
@[simp] theorem raise_hout (c : Code) (s : State) : (raise c s).hout = s.hout := rfl
@[simp] theorem raise_pout (c : Code) (s : State) : (raise c s).pout = s.pout := rfl
@[simp] theorem raise_smode (c : Code) (s : State) : (raise c s).smode = s.smode := rfl
@[simp] theorem raise_cmd (c : Code) (s : State) : (raise c s).cmd = s.cmd := rfl
@[simp] theorem raise_code (c : Code) (s : State) : (raise c s).code = c := rfl
@[simp] theorem raise_res0 (c : Code) (s : State) : (raise c s).res0 = 0 := rfl
@[simp] theorem raise_res1 (c : Code) (s : State) : (raise c s).res1 = 0 := rfl
@[simp] theorem raise_res2 (c : Code) (s : State) : (raise c s).res2 = 0 := rfl
@[simp] theorem raise_seq (c : Code) (s : State) : (raise c s).seq = .idle := rfl
@[simp] theorem raise_inputs (c : Code) (s : State) : (raise c s).inputs = s.inputs := rfl
@[simp] theorem raise_replies (c : Code) (s : State) : (raise c s).replies = s.replies := rfl

@[simp] theorem raise_history (c : Code) (s : State) :
    (raise c s).history = s.history ++ [.finish (hostRegs (raise c s))] := rfl

/-! ### powerOn -/

@[simp] theorem powerOn_cfg (s : State) : (powerOn s).cfg = s.cfg := rfl
@[simp] theorem powerOn_cal (s : State) : (powerOn s).cal = State.reset.cal := rfl
@[simp] theorem powerOn_tFine (s : State) : (powerOn s).tFine = State.reset.tFine := rfl
@[simp] theorem powerOn_tout (s : State) : (powerOn s).tout = State.reset.tout := rfl
@[simp] theorem powerOn_hout (s : State) : (powerOn s).hout = State.reset.hout := rfl
@[simp] theorem powerOn_pout (s : State) : (powerOn s).pout = State.reset.pout := rfl
@[simp] theorem powerOn_smode (s : State) : (powerOn s).smode = State.reset.smode := rfl
@[simp] theorem powerOn_cmd (s : State) : (powerOn s).cmd = State.reset.cmd := rfl
@[simp] theorem powerOn_code (s : State) : (powerOn s).code = State.reset.code := rfl
@[simp] theorem powerOn_res0 (s : State) : (powerOn s).res0 = State.reset.res0 := rfl
@[simp] theorem powerOn_res1 (s : State) : (powerOn s).res1 = State.reset.res1 := rfl
@[simp] theorem powerOn_res2 (s : State) : (powerOn s).res2 = State.reset.res2 := rfl
@[simp] theorem powerOn_seq (s : State) : (powerOn s).seq = State.reset.seq := rfl
@[simp] theorem powerOn_inputs (s : State) : (powerOn s).inputs = s.inputs := rfl
@[simp] theorem powerOn_history (s : State) : (powerOn s).history = s.history := rfl
@[simp] theorem powerOn_replies (s : State) : (powerOn s).replies = s.replies := rfl

/-! ### placeCommand -/

@[simp] theorem placeCommand_cfg (w : Word) (s : State) : (placeCommand w s).cfg = s.cfg := rfl
@[simp] theorem placeCommand_cal (w : Word) (s : State) : (placeCommand w s).cal = s.cal := rfl
@[simp] theorem placeCommand_tFine (w : Word) (s : State) : (placeCommand w s).tFine = s.tFine := rfl
@[simp] theorem placeCommand_tout (w : Word) (s : State) : (placeCommand w s).tout = s.tout := rfl
@[simp] theorem placeCommand_hout (w : Word) (s : State) : (placeCommand w s).hout = s.hout := rfl
@[simp] theorem placeCommand_pout (w : Word) (s : State) : (placeCommand w s).pout = s.pout := rfl
@[simp] theorem placeCommand_smode (w : Word) (s : State) : (placeCommand w s).smode = s.smode := rfl
@[simp] theorem placeCommand_cmd (w : Word) (s : State) : (placeCommand w s).cmd = s.cmd := rfl
@[simp] theorem placeCommand_code (w : Word) (s : State) : (placeCommand w s).code = s.code := rfl
@[simp] theorem placeCommand_res0 (w : Word) (s : State) : (placeCommand w s).res0 = s.res0 := rfl
@[simp] theorem placeCommand_res1 (w : Word) (s : State) : (placeCommand w s).res1 = s.res1 := rfl
@[simp] theorem placeCommand_res2 (w : Word) (s : State) : (placeCommand w s).res2 = s.res2 := rfl
@[simp] theorem placeCommand_seq (w : Word) (s : State) : (placeCommand w s).seq = .idle := rfl
@[simp] theorem placeCommand_inputs (w : Word) (s : State) : (placeCommand w s).inputs = .hostWrite s.cfg.hostBase 32 w :: s.inputs := rfl
@[simp] theorem placeCommand_history (w : Word) (s : State) : (placeCommand w s).history = s.history := rfl
@[simp] theorem placeCommand_replies (w : Word) (s : State) : (placeCommand w s).replies = s.replies := rfl

/-! ### The position -/

@[simp] theorem waitAt_pos (i : Instr) (p : Pos) (s : State) : (waitAt i p s).pos = p := rfl
@[simp] theorem record_pos (e : Event) (s : State) : (record e s).pos = s.pos := rfl
@[simp] theorem finish_pos (c : Code) (r0 r1 r2 : Word) (s : State) : (finish c r0 r1 r2 s).pos = .start := rfl

/-! ### The host-visible registers depend on the CE's registers only -/

@[simp] theorem hostRegs_record (e : Event) (s : State) : hostRegs (record e s) = hostRegs s := rfl

end Sys2Proof.Machine
end

