-- ==== Sys2Proof/Laws/Ops.lean ====
section
/-! SUPPORT. What each shared operation of the model can do, said once: proofs cite these lemmas instead of unfolding the
operation. -/

namespace Sys2Proof.Machine

/-! ### Transactions -/

/-- With a fitting answer next, a transaction is recorded and the command goes on. -/
theorem transact_answered (i : Instr) (p : Pos) (fits : List Byte → Bool) (event : Bool → List Byte → Event)
    (k : Bool → List Byte → State → Result) (s : State) {ack : Bool} {bs : List Byte} {rest : List Input}
    (hin : s.inputs = .sensor ack bs :: rest) (hfit : fits bs = true) :
    transact i p fits event k s = k ack bs (record (event ack bs) { s with inputs := rest }) := by
  simp [transact, hin, hfit]

/-- With an answer next that does not fit, the transaction is not completed and the answer is gone. -/
theorem transact_misfit (i : Instr) (p : Pos) (fits : List Byte → Bool) (event : Bool → List Byte → Event)
    (k : Bool → List Byte → State → Result) (s : State) {ack : Bool} {bs : List Byte} {rest : List Input}
    (hin : s.inputs = .sensor ack bs :: rest) (hfit : fits bs = false) :
    transact i p fits event k s = .next (waitAt i p { s with inputs := rest }) := by
  simp [transact, hin, hfit]

/-- With no answer next, the command waits. -/
theorem transact_waits (i : Instr) (p : Pos) (fits : List Byte → Bool) (event : Bool → List Byte → Event)
    (k : Bool → List Byte → State → Result) (s : State)
    (hin : ∀ ack bs rest, s.inputs ≠ .sensor ack bs :: rest) :
    transact i p fits event k s = .next (waitAt i p s) := by
  unfold transact
  split
  · exact absurd ‹_› (hin _ _ _)
  · rfl

/-- All a transaction can do: complete with a fitting answer and go on, or wait at its position with at most one answer
dropped. -/
theorem transact_cases (i : Instr) (p : Pos) (fits : List Byte → Bool) (event : Bool → List Byte → Event)
    (k : Bool → List Byte → State → Result) (s : State) :
    (∃ ack bs rest, s.inputs = .sensor ack bs :: rest ∧ fits bs = true ∧
      transact i p fits event k s = k ack bs (record (event ack bs) { s with inputs := rest })) ∨
    (∃ ack bs rest, s.inputs = .sensor ack bs :: rest ∧ fits bs = false ∧
      transact i p fits event k s = .next (waitAt i p { s with inputs := rest })) ∨
    ((∀ ack bs rest, s.inputs ≠ .sensor ack bs :: rest) ∧ transact i p fits event k s = .next (waitAt i p s)) := by
  by_cases h : ∃ ack bs rest, s.inputs = .sensor ack bs :: rest
  · obtain ⟨ack, bs, rest, hin⟩ := h
    cases hfit : fits bs with
    | true => exact .inl ⟨ack, bs, rest, hin, hfit, transact_answered i p fits event k s hin hfit⟩
    | false => exact .inr (.inl ⟨ack, bs, rest, hin, hfit, transact_misfit i p fits event k s hin hfit⟩)
  · have hin : ∀ ack bs rest, s.inputs ≠ .sensor ack bs :: rest := fun a b r e => h ⟨a, b, r, e⟩
    exact .inr (.inr ⟨hin, transact_waits i p fits event k s hin⟩)

/-- Two ways to go on that agree after every fitting answer give the same transaction. -/
theorem transact_congr (i : Instr) (p : Pos) (fits : List Byte → Bool) (event : Bool → List Byte → Event)
    (k k' : Bool → List Byte → State → Result) (s : State)
    (h : ∀ ack bs rest, s.inputs = .sensor ack bs :: rest → fits bs = true →
      k ack bs (record (event ack bs) { s with inputs := rest }) =
        k' ack bs (record (event ack bs) { s with inputs := rest })) :
    transact i p fits event k s = transact i p fits event k' s := by
  unfold transact
  split
  · rename_i hin
    split
    · exact h _ _ _ hin ‹_›
    · rfl
  · rfl

/-- A property of results holds after a transaction if it holds of every state the command may wait in and of everything
it may go on to. -/
theorem transact_induct {P : Result → Prop} (i : Instr) (p : Pos) (fits : List Byte → Bool)
    (event : Bool → List Byte → Event) (k : Bool → List Byte → State → Result) (s : State)
    (wait : ∀ dropped rest, s.inputs = dropped ++ rest → P (.next (waitAt i p { s with inputs := rest })))
    (go : ∀ ack bs rest, s.inputs = .sensor ack bs :: rest → fits bs = true →
      P (k ack bs (record (event ack bs) { s with inputs := rest }))) :
    P (transact i p fits event k s) := by
  obtain ⟨ack, bs, rest, hin, hfit, e⟩ | ⟨ack, bs, rest, hin, -, e⟩ | ⟨-, e⟩ := transact_cases i p fits event k s
  · rw [e]; exact go ack bs rest hin hfit
  · rw [e]; exact wait [.sensor ack bs] rest hin
  · rw [e]; exact wait [] s.inputs rfl

/-- A read with an answer of the right length. -/
theorem memRead_answered (i : Instr) (p : Pos) (a : Byte) (n : Nat) (k : List Byte → State → Result) (s : State)
    {ack : Bool} {bs : List Byte} {rest : List Input} (hin : s.inputs = .sensor ack bs :: rest) (hlen : bs.length = n) :
    memRead i p a n k s = k bs (record (.read a n bs none) { s with inputs := rest }) :=
  transact_answered i p _ _ _ s hin (by simpa using hlen)

/-- A read with its status, with an answer of the right length. -/
theorem memReadAck_answered (i : Instr) (p : Pos) (a : Byte) (n : Nat) (k : Bool → List Byte → State → Result) (s : State)
    {ack : Bool} {bs : List Byte} {rest : List Input} (hin : s.inputs = .sensor ack bs :: rest) (hlen : bs.length = n) :
    memReadAck i p a n k s = k ack bs (record (.read a n bs (some ack)) { s with inputs := rest }) :=
  transact_answered i p _ _ _ s hin (by simpa using hlen)

/-- A write with an answer. -/
theorem memWrite_answered (i : Instr) (p : Pos) (a v : Byte) (k : State → Result) (s : State)
    {ack : Bool} {bs : List Byte} {rest : List Input} (hin : s.inputs = .sensor ack bs :: rest) :
    memWrite i p a v k s = k (record (.write a v) { s with inputs := rest }) :=
  transact_answered i p _ _ _ s hin rfl

/-- All a read can do to a property of results. -/
theorem memRead_induct {P : Result → Prop} (i : Instr) (p : Pos) (a : Byte) (n : Nat) (k : List Byte → State → Result)
    (s : State)
    (wait : ∀ dropped rest, s.inputs = dropped ++ rest → P (.next (waitAt i p { s with inputs := rest })))
    (go : ∀ ack bs rest, s.inputs = .sensor ack bs :: rest → bs.length = n →
      P (k bs (record (.read a n bs none) { s with inputs := rest }))) :
    P (memRead i p a n k s) :=
  transact_induct i p _ _ _ s wait (fun ack bs rest hin hfit => go ack bs rest hin (by simpa using hfit))

/-- All a read with its status can do to a property of results. -/
theorem memReadAck_induct {P : Result → Prop} (i : Instr) (p : Pos) (a : Byte) (n : Nat)
    (k : Bool → List Byte → State → Result) (s : State)
    (wait : ∀ dropped rest, s.inputs = dropped ++ rest → P (.next (waitAt i p { s with inputs := rest })))
    (go : ∀ ack bs rest, s.inputs = .sensor ack bs :: rest → bs.length = n →
      P (k ack bs (record (.read a n bs (some ack)) { s with inputs := rest }))) :
    P (memReadAck i p a n k s) :=
  transact_induct i p _ _ _ s wait (fun ack bs rest hin hfit => go ack bs rest hin (by simpa using hfit))

/-- All a write can do to a property of results. -/
theorem memWrite_induct {P : Result → Prop} (i : Instr) (p : Pos) (a v : Byte) (k : State → Result) (s : State)
    (wait : ∀ dropped rest, s.inputs = dropped ++ rest → P (.next (waitAt i p { s with inputs := rest })))
    (go : ∀ ack bs rest, s.inputs = .sensor ack bs :: rest →
      P (k (record (.write a v) { s with inputs := rest }))) :
    P (memWrite i p a v k s) :=
  transact_induct i p _ _ _ s wait (fun ack bs rest hin _ => go ack bs rest hin)

/-- All a field read can do to a property of results. -/
theorem fieldGet_induct {P : Result → Prop} (i : Instr) (p : Pos) (f : Field) (k : Byte → State → Result) (s : State)
    (wait : ∀ dropped rest, s.inputs = dropped ++ rest → P (.next (waitAt i p { s with inputs := rest })))
    (go : ∀ ack bs rest, s.inputs = .sensor ack bs :: rest → bs.length = 1 →
      P (k (fieldOf f (byteAt bs 0)) (record (.read f.reg 1 bs none) { s with inputs := rest }))) :
    P (fieldGet i p f k s) :=
  memRead_induct i p _ _ _ s wait go

/-- All the write of a field update can do to a property of results. -/
theorem fieldPut_induct {P : Result → Prop} (i : Instr) (q : Byte → Pos) (f : Field) (v old : Byte)
    (k : State → Result) (s : State)
    (wait : ∀ dropped rest, s.inputs = dropped ++ rest → P (.next (waitAt i (q old) { s with inputs := rest })))
    (go : ∀ ack bs rest, s.inputs = .sensor ack bs :: rest →
      P (k (record (.write f.reg (fieldInsert f old v)) { s with inputs := rest }))) :
    P (fieldPut i q f v old k s) :=
  memWrite_induct i _ _ _ _ s wait go

/-- A field update whose read and write are both answered: the two transactions in order, then `k`. -/
theorem fieldSet_answered (i : Instr) (p : Pos) (q : Byte → Pos) (f : Field) (v : Byte) (k : State → Result) (s : State)
    {ack ack' : Bool} {old : Byte} {ws : List Byte} {rest : List Input}
    (hin : s.inputs = .sensor ack [old] :: .sensor ack' ws :: rest) :
    fieldSet i p q f v k s =
      k (record (.write f.reg (fieldInsert f old v)) (record (.read f.reg 1 [old] none) { s with inputs := rest })) := by
  rw [fieldSet, memRead_answered i p f.reg 1 _ s hin rfl, fieldPut,
    memWrite_answered i _ f.reg _ k _ (ack := ack') (bs := ws) (rest := rest) rfl]
  rfl

/-! ### The host port -/

/-- All a host write can do: have its word accepted by an IDLE engine's CMD, or nothing. -/
theorem hostWrite_cases (addr width : Nat) (data : Word) (s : State) :
    (s.seq = .idle ∧ (∃ off, hostOffset s.cfg addr = some off ∧ wordAccess off width = true ∧ off = 0) ∧
      hostWrite addr width data s = accept data s) ∨
    hostWrite addr width data s = .next s := by
  unfold hostWrite
  split
  · rename_i off hoff
    split
    · rename_i hseq
      split
      · rename_i hacc
        simp only [Bool.and_eq_true, beq_iff_eq] at hacc
        exact .inl ⟨hseq, ⟨off, hoff, hacc.1, hacc.2⟩, rfl⟩
      · exact .inr rfl
    · exact .inr rfl
  · exact .inr rfl

/-- All a host read can do: add at most one word to the replies. -/
theorem hostRead_cases (addr width : Nat) (s : State) :
    hostRead addr width s = s ∨ ∃ v, hostRead addr width s = { s with replies := s.replies ++ [v] } := by
  unfold hostRead
  split
  · exact .inr ⟨_, rfl⟩
  · exact .inl rfl

/-- All accepting a word can do: start the command it encodes, or raise ILLEGAL. -/
theorem accept_cases (w : Word) (s : State) :
    (∃ i, decode w = .command i ∧ accept w s = exec i { s with cmd := w, seq := .busy i .start }) ∨
    (∃ r, decode w = .rejected r ∧ accept w s = .next (raise .illegal { s with cmd := w })) := by
  unfold accept
  split
  · exact .inl ⟨_, ‹_›, rfl⟩
  · exact .inr ⟨_, ‹_›, rfl⟩

/-- All a step can do. -/
theorem serve_cases (s : State) :
    (s.inputs = [] ∧ s.seq = .idle ∧ serve s = .next s) ∨
    (s.inputs = [] ∧ (∃ i p, s.seq = .busy i p) ∧ serve s = .fault .hang) ∨
    (∃ addr width data rest, s.inputs = .hostWrite addr width data :: rest ∧
      serve s = hostWrite addr width data { s with inputs := rest }) ∨
    (∃ addr width rest, s.inputs = .hostRead addr width :: rest ∧
      serve s = .next (hostRead addr width { s with inputs := rest })) ∨
    (∃ ack bs rest, s.inputs = .sensor ack bs :: rest ∧ s.seq = .idle ∧ serve s = .next { s with inputs := rest }) ∨
    (∃ ack bs rest i p, s.inputs = .sensor ack bs :: rest ∧ s.seq = .busy i p ∧ serve s = exec i s) ∨
    (∃ rest, s.inputs = .powerOn :: rest ∧ serve s = .next (powerOn { s with inputs := rest })) := by
  cases hin : s.inputs with
  | nil =>
    cases hseq : s.seq with
    | idle => exact .inl ⟨rfl, rfl, by simp [serve, hin, hseq]⟩
    | busy i p => exact .inr (.inl ⟨rfl, ⟨i, p, rfl⟩, by simp [serve, hin, hseq]⟩)
  | cons x rest =>
    cases x with
    | hostWrite addr width data =>
      exact .inr (.inr (.inl ⟨addr, width, data, rest, rfl, by simp [serve, hin]⟩))
    | hostRead addr width =>
      exact .inr (.inr (.inr (.inl ⟨addr, width, rest, rfl, by simp [serve, hin]⟩)))
    | sensor ack bs =>
      cases hseq : s.seq with
      | idle => exact .inr (.inr (.inr (.inr (.inl ⟨ack, bs, rest, rfl, rfl, by simp [serve, hin, hseq]⟩))))
      | busy i p =>
        exact .inr (.inr (.inr (.inr (.inr (.inl ⟨ack, bs, rest, i, p, rfl, rfl, by simp [serve, hin, hseq]⟩)))))
    | powerOn =>
      exact .inr (.inr (.inr (.inr (.inr (.inr ⟨rest, rfl, by simp [serve, hin]⟩)))))

end Sys2Proof.Machine
end

