-- ==== Sys2Proof/Laws/Exec.lean ====
section
/-! SUPPORT. What running a command can do, said once (`exec_ends`): it takes some answers, records some of the command's own
transactions, and then waits at a position of its rule, finishes with the writes its rule commits, or (OVF_MODEL = fault)
stops. Whole-machine statements follow from this lemma without unfolding a meaning. -/

namespace Sys2Proof.Machine

/-- `u` is `s` after part of the run of command `i`: inputs have been taken in order, transactions of the command recorded,
and nothing else has changed. -/
structure Ran (i : Instr) (s u : State) : Prop where
  engine  : EngineKept s u
  results : ResultsKept s u
  edges   : EdgesKept s u
  seq     : u.seq = s.seq
  inputs  : ∃ taken, s.inputs = taken ++ u.inputs
  history : ∃ evs, u.history = s.history ++ evs ∧ ∀ e ∈ evs, allowed i e = true

/-- How the run of a command that has got to `u` can end. `ok p` says that the position `p` is one of the command's rule. -/
inductive Ends (i : Instr) (ok : Pos → Prop) (u : State) : Result → Prop where
  /-- It waits. -/
  | wait (p : Pos) (h : ok p) : Ends i ok u (.next (waitAt i p u))
  /-- It fails (R25, R106). -/
  | fail (c : Code) (h : c ≠ .ok) : Ends i ok u (.next (raise c u))
  /-- BEGIN and RESET commit CAL (R70, R104). -/
  | load (c h1 e : List Byte) (h : i = .begin ∨ i = .reset) :
      Ends i ok u (.next (finish .ok 1 0 0 { u with cal := assemble c h1 e }))
  /-- MODE.SET commits SMODE (R79). -/
  | mode (a : Nat) (r : Word) (h : i = .modeSet a) :
      Ends i ok u (.next (finish .ok r 0 0 { u with smode := modeOperand a }))
  /-- READ commits the reading (R86). -/
  | reading (f t hum p : Word) (h : i = .read) (hh : hum.toNat ≤ 10000) :
      Ends i ok u (.next (finish .ok t hum p { u with tFine := f, tout := t, hout := hum, pout := p }))
  /-- The other commands commit their result only. -/
  | value (r : Word) : Ends i ok u (.next (finish .ok r 0 0 u))
  /-- READ stops with OVF_MODEL = fault. -/
  | overflow (h : i = .read) (ho : u.cfg.ovf = .fault) : Ends i ok u (.fault .intermediateOverflow)

/-- The run of `i` from `s` ends somehow after some part of it. -/
def RunEnds (i : Instr) (ok : Pos → Prop) (s : State) (r : Result) : Prop := ∃ u, Ran i s u ∧ Ends i ok u r

theorem Ran.refl (i : Instr) (s : State) : Ran i s s :=
  ⟨⟨rfl, rfl, rfl, rfl, rfl, rfl⟩, ⟨rfl, rfl, rfl, rfl⟩, ⟨rfl, rfl, rfl⟩, rfl, ⟨[], rfl⟩, ⟨[], by simp, by simp⟩⟩

/-- Dropping inputs goes on with the run. -/
theorem Ran.drop {i : Instr} {s u : State} (h : Ran i s u) {dropped rest : List Input} (hin : u.inputs = dropped ++ rest) :
    Ran i s { u with inputs := rest } := by
  obtain ⟨taken, ht⟩ := h.inputs
  exact ⟨⟨h.engine.cal, h.engine.tFine, h.engine.tout, h.engine.hout, h.engine.pout, h.engine.smode⟩,
    ⟨h.results.code, h.results.res0, h.results.res1, h.results.res2⟩, ⟨h.edges.cmd, h.edges.cfg, h.edges.replies⟩, h.seq,
    ⟨taken ++ dropped, by rw [ht, hin, List.append_assoc]⟩, h.history⟩

/-- Recording a transaction the command may perform goes on with the run. -/
theorem Ran.record {i : Instr} {s u : State} (h : Ran i s u) {e : Event} (he : allowed i e = true) :
    Ran i s (record e u) := by
  obtain ⟨evs, hh, ha⟩ := h.history
  refine ⟨⟨h.engine.cal, h.engine.tFine, h.engine.tout, h.engine.hout, h.engine.pout, h.engine.smode⟩,
    ⟨h.results.code, h.results.res0, h.results.res1, h.results.res2⟩, ⟨h.edges.cmd, h.edges.cfg, h.edges.replies⟩, h.seq,
    h.inputs, ⟨evs ++ [e], by simp [hh], ?_⟩⟩
  intro x hx
  rcases List.mem_append.mp hx with hx | hx
  · exact ha x hx
  · rw [List.mem_singleton.mp hx]; exact he

/-- A read within the run of a command. -/
theorem memRead_runEnds {i : Instr} {ok : Pos → Prop} {s u : State} {p : Pos} {a : Byte} {n : Nat}
    {k : List Byte → State → Result} (hr : Ran i s u) (hp : ok p)
    (ha : (readsOf i).contains (a, n) = true) (hid : a ≠ 0xD0)
    (go : ∀ bs t, bs.length = n → Ran i s t → RunEnds i ok s (k bs t)) :
    RunEnds i ok s (memRead i p a n k u) := by
  apply memRead_induct
  · intro dropped rest hin
    exact ⟨_, hr.drop hin, .wait p hp⟩
  · intro ack bs rest hin hlen
    have hd := hr.drop (dropped := [.sensor ack bs]) hin
    have hb : (a == 0xD0) = false := by simpa using hid
    exact go bs _ hlen (hd.record (by rw [allowed, ha, hlen, hb]; simp))

/-- A write within the run of a command. -/
theorem memWrite_runEnds {i : Instr} {ok : Pos → Prop} {s u : State} {p : Pos} {a v : Byte}
    {k : State → Result} (hr : Ran i s u) (hp : ok p)
    (ha : allowed i (.write a v) = true) (go : ∀ t, Ran i s t → RunEnds i ok s (k t)) :
    RunEnds i ok s (memWrite i p a v k u) := by
  apply memWrite_induct
  · intro dropped rest hin
    exact ⟨_, hr.drop hin, .wait p hp⟩
  · intro ack bs rest hin
    exact go _ ((hr.drop (dropped := [.sensor ack bs]) hin).record ha)

/-! ### The calibration load -/

theorem loadH_runEnds {i : Instr} {ok : Pos → Prop} {s u : State} {c h1 : List Byte} (hi : i = .begin ∨ i = .reset)
    (hr : Ran i s u) (hp : ok (.calH c h1)) : RunEnds i ok s (loadH i c h1 u) :=
  memRead_runEnds hr hp (by rcases hi with rfl | rfl <;> rfl) (by decide)
    (fun e t _ ht => ⟨t, ht, .load c h1 e hi⟩)

theorem loadH1_runEnds {i : Instr} {ok : Pos → Prop} {s u : State} {c : List Byte} (hi : i = .begin ∨ i = .reset)
    (hr : Ran i s u) (hp : ok (.calH1 c)) (hq : ∀ h1 : List Byte, h1.length = 1 → ok (.calH c h1)) :
    RunEnds i ok s (loadH1 i c u) :=
  memRead_runEnds hr hp (by rcases hi with rfl | rfl <;> rfl) (by decide)
    (fun h1 _ hl ht => loadH_runEnds hi ht (hq h1 hl))

theorem loadTP_runEnds {i : Instr} {ok : Pos → Prop} {s u : State} (hi : i = .begin ∨ i = .reset)
    (hr : Ran i s u) (hp : ok .calTP) (hq : ∀ c : List Byte, c.length = 24 → ok (.calH1 c))
    (hq' : ∀ c h1 : List Byte, c.length = 24 → h1.length = 1 → ok (.calH c h1)) :
    RunEnds i ok s (loadTP i u) :=
  memRead_runEnds hr hp (by rcases hi with rfl | rfl <;> rfl) (by decide)
    (fun c _ hl ht => loadH1_runEnds hi ht (hq c hl) (fun h1 hl1 => hq' c h1 hl hl1))

theorem identify_runEnds {i : Instr} {ok : Pos → Prop} {s u : State} {p : Pos} (hi : i = .begin ∨ i = .reset)
    (hr : Ran i s u) (hp : ok p) (ht : ok .calTP) (hq : ∀ c : List Byte, c.length = 24 → ok (.calH1 c))
    (hq' : ∀ c h1 : List Byte, c.length = 24 → h1.length = 1 → ok (.calH c h1)) :
    RunEnds i ok s (identify i p u) := by
  apply memReadAck_induct
  · intro dropped rest hin
    exact ⟨_, hr.drop hin, .wait p hp⟩
  · intro ack bs rest hin hlen
    have hd := (hr.drop (dropped := [.sensor ack bs]) hin).record (e := .read 0xD0 1 bs (some ack))
      (by rcases hi with rfl | rfl <;> simp [allowed, readsOf, hlen])
    split
    · exact ⟨_, hd, .fail _ (by decide)⟩
    · exact loadTP_runEnds hi hd ht hq hq'

/-! ### Fields -/

theorem fieldGet_runEnds {i : Instr} {ok : Pos → Prop} {s u : State} {p : Pos} {f : Field} {k : Byte → State → Result}
    (hr : Ran i s u) (hp : ok p) (ha : (readsOf i).contains (f.reg, 1) = true) (hid : f.reg ≠ 0xD0)
    (go : ∀ v t, Ran i s t → RunEnds i ok s (k v t)) : RunEnds i ok s (fieldGet i p f k u) :=
  memRead_runEnds hr hp ha hid (fun _ t _ ht => go _ t ht)

theorem fieldPut_runEnds {i : Instr} {ok : Pos → Prop} {s u : State} {q : Byte → Pos} {f : Field} {v old : Byte}
    {k : State → Result} (hr : Ran i s u) (hq : ok (q old))
    (hw : ∀ x, allowed i (.write f.reg x) = true) (go : ∀ t, Ran i s t → RunEnds i ok s (k t)) :
    RunEnds i ok s (fieldPut i q f v old k u) :=
  memWrite_runEnds hr hq (hw _) go

theorem fieldSet_runEnds {i : Instr} {ok : Pos → Prop} {s u : State} {p : Pos} {q : Byte → Pos} {f : Field} {v : Byte}
    {k : State → Result} (hr : Ran i s u) (hp : ok p) (hq : ∀ old, ok (q old))
    (ha : (readsOf i).contains (f.reg, 1) = true) (hid : f.reg ≠ 0xD0)
    (hw : ∀ x, allowed i (.write f.reg x) = true) (go : ∀ t, Ran i s t → RunEnds i ok s (k t)) :
    RunEnds i ok s (fieldSet i p q f v k u) :=
  memRead_runEnds hr hp ha hid (fun _ _ _ ht => fieldPut_runEnds ht (hq _) hw go)

theorem setField_runEnds {i : Instr} {ok : Pos → Prop} {s : State} {f : Field} {v : Byte} {k : State → Result}
    (hp : ok .start) (hq : ∀ old, ok (.fieldWrite old))
    (ha : (readsOf i).contains (f.reg, 1) = true) (hid : f.reg ≠ 0xD0)
    (hw : ∀ x, allowed i (.write f.reg x) = true) (go : ∀ t, Ran i s t → RunEnds i ok s (k t)) :
    RunEnds i ok s (setField i f v k s) := by
  unfold setField
  split
  · exact fieldPut_runEnds (Ran.refl i s) (hq _) hw go
  · exact fieldSet_runEnds (Ran.refl i s) hp hq ha hid hw go

theorem getField_runEnds {i : Instr} {ok : Pos → Prop} {s : State} {f : Field} (hp : ok .start)
    (ha : (readsOf i).contains (f.reg, 1) = true) (hid : f.reg ≠ 0xD0) : RunEnds i ok s (getField i f s) :=
  fieldGet_runEnds (Ran.refl i s) hp ha hid (fun _ t ht => ⟨t, ht, .value _⟩)

/-! ### READ -/

/-- The output stage never exceeds 10000 (R96), whatever the clamped value. -/
theorem humOut_le (v : Word) : (humOut v).toNat ≤ 10000 := by
  have hc : (humClamp v).toNat ≤ 419430400 := by
    unfold humClamp humMax
    split
    · simp
    · split
      · simp
      · rename_i h0 h1
        simp only [BitVec.slt, decide_eq_true_eq, BitVec.toInt_eq_toNat_cond] at h0 h1
        have := v.isLt
        simp at h0 h1
        split at h1 <;> split at h0 <;> omega
  have hs : ((humClamp v).sshiftRight 12).toNat = (humClamp v).toNat / 4096 := by
    have hm : (humClamp v).msb = false := by
      rw [BitVec.msb_eq_decide]; simp; omega
    rw [BitVec.sshiftRight_eq_of_msb_false hm]
    simp [Nat.shiftRight_eq_div_pow]
  have hq : (humClamp v).toNat / 4096 ≤ 102400 := Nat.div_le_div_right (c := 4096) hc
  unfold humOut
  rw [BitVec.toNat_udiv, BitVec.toNat_mul, hs]
  generalize (humClamp v).toNat / 4096 = q at hq
  have hm : q * BitVec.toNat (100 : Word) % 2 ^ 32 = q * 100 := Nat.mod_eq_of_lt (by simp; omega)
  rw [hm]
  simp
  omega

theorem compensate_runEnds {ok : Pos → Prop} {s t : State} {d : List Byte} (ht : Ran .read s t) :
    RunEnds .read ok s (compensate d t) := by
  unfold compensate
  split
  · rename_i h
    exact ⟨t, ht, .overflow rfl h.1⟩
  · exact ⟨t, ht, .reading _ _ _ _ rfl (humOut_le _)⟩

theorem readBurst_runEnds {ok : Pos → Prop} {s u : State} (hr : Ran .read s u) (hp : ok .burst) :
    RunEnds .read ok s (readBurst u) :=
  memRead_runEnds hr hp rfl (by decide) (fun _ _ _ ht => compensate_runEnds ht)

theorem pollStatus_runEnds {ok : Pos → Prop} {s : State} (hb : ok .burst)
    (hs : ∀ n, pollsExhausted s.cfg (n + 1) = false → ok (.poll (n + 1))) (fuel : Nat) :
    ∀ (n : Nat) (u : State), Ran .read s u → ok (.poll n) → RunEnds .read ok s (pollStatus fuel n u) := by
  induction fuel with
  | zero =>
    intro n u hr hp
    unfold pollStatus
    refine memRead_runEnds hr hp rfl (by decide) (fun bs t _ ht => ?_)
    split
    · exact readBurst_runEnds ht hb
    · split
      · exact ⟨_, ht, .fail _ (by decide)⟩
      · rename_i hx
        exact ⟨_, ht, .wait _ (hs n (by simpa [ht.edges.cfg] using hx))⟩
  | succ fuel ih =>
    intro n u hr hp
    unfold pollStatus
    refine memRead_runEnds hr hp rfl (by decide) (fun bs t _ ht => ?_)
    split
    · exact readBurst_runEnds ht hb
    · split
      · exact ⟨_, ht, .fail _ (by decide)⟩
      · rename_i hx
        exact ih (n + 1) t ht (hs n (by simpa [ht.edges.cfg] using hx))

/-- The positions a command may wait at in its run from `s`: those of its rule, whenever the run starts at the first
transaction or at a position of the rule. -/
abbrev MayWait (i : Instr) (s : State) (p : Pos) : Prop :=
  (s.pos = .start ∨ inSequence s i s.pos = true) → inSequence s i p = true

theorem read_runEnds (s : State) : RunEnds .read (MayWait .read s) s (execRead s) := by
  have hb : MayWait .read s .burst := fun _ => rfl
  have h0 : MayWait .read s (.poll 0) := fun _ => rfl
  have hs : ∀ n, pollsExhausted s.cfg (n + 1) = false → MayWait .read s (.poll (n + 1)) :=
    fun n h _ => by simp [inSequence, h]
  have hw : ∀ x, allowed .read (.write modeField.reg x) = true := fun _ => rfl
  have poll0 : ∀ t, Ran .read s t → RunEnds .read (MayWait .read s) s (readPoll 0 t) :=
    fun t h => pollStatus_runEnds hb hs _ 0 t h h0
  have trig (hf : MayWait .read s .trigRead) (t : State) (ht : Ran .read s t) :
      RunEnds .read (MayWait .read s) s
        (fieldSet .read .trigRead .trigWrite modeField (s.smode.setWidth 8) (readPoll 0) t) :=
    fieldSet_runEnds ht hf (fun _ => hf) rfl (by decide) hw poll0
  unfold execRead
  split
  · rename_i e
    exact trig (by intro h; rw [e] at h; simpa using h) s (Ran.refl _ s)
  · rename_i old e
    exact fieldPut_runEnds (Ran.refl _ s) (by intro h; rw [e] at h; simpa [inSequence] using h) hw poll0
  · rename_i n e
    exact pollStatus_runEnds hb hs _ n s (Ran.refl _ s) (by intro h; rw [e] at h; simpa using h)
  · exact readBurst_runEnds (Ran.refl _ s) hb
  · unfold readStart
    split
    · rename_i hforced
      refine fieldGet_runEnds (Ran.refl _ s) (fun _ => by simp [inSequence, hforced]) rfl (by decide) (fun v t hv => ?_)
      split
      · exact trig (fun _ => by simp [inSequence, hforced]) t hv
      · exact poll0 t hv
    · exact poll0 s (Ran.refl _ s)

/-! ### The other commands -/

theorem resumeLoad_runEnds {i : Instr} (hi : i = .begin ∨ i = .reset) (s : State) (start : Result)
    (hs : RunEnds i (MayWait i s) s start) : RunEnds i (MayWait i s) s ((resumeLoad i s).getD start) := by
  unfold resumeLoad
  split
  · exact loadTP_runEnds hi (Ran.refl _ s) (by intro _; rcases hi with rfl | rfl <;> rfl)
      (by intro c h _; rcases hi with rfl | rfl <;> simp [inSequence, h])
      (by intro c h1 h h' _; rcases hi with rfl | rfl <;> simp [inSequence, h, h'])
  · rename_i c e
    have hc : (s.pos = .start ∨ inSequence s i s.pos = true) → c.length = 24 := by
      intro h; rw [e] at h; rcases hi with rfl | rfl <;> simpa [inSequence] using h
    exact loadH1_runEnds hi (Ran.refl _ s) (by intro h; rw [e] at h; simpa using h)
      (by intro h1 h' h; rcases hi with rfl | rfl <;> simp [inSequence, hc h, h'])
  · rename_i c h1 e
    exact loadH_runEnds hi (Ran.refl _ s) (by intro h; rw [e] at h; simpa using h)
  · exact hs

theorem identify_mayWait {i : Instr} (hi : i = .begin ∨ i = .reset) {s u : State} {p : Pos} (hr : Ran i s u)
    (hp : MayWait i s p) : RunEnds i (MayWait i s) s (identify i p u) :=
  identify_runEnds hi hr hp (by intro _; rcases hi with rfl | rfl <;> rfl)
    (by intro c h _; rcases hi with rfl | rfl <;> simp [inSequence, h])
    (by intro c h1 h h' _; rcases hi with rfl | rfl <;> simp [inSequence, h, h'])

theorem begin_runEnds (s : State) : RunEnds .begin (MayWait .begin s) s (execBegin s) :=
  resumeLoad_runEnds (.inl rfl) s _ (identify_mayWait (.inl rfl) (Ran.refl _ s) (fun _ => rfl))

theorem reset_runEnds (s : State) : RunEnds .reset (MayWait .reset s) s (execReset s) := by
  unfold execReset
  split
  · exact identify_mayWait (.inr rfl) (Ran.refl _ s) (fun _ => rfl)
  · exact resumeLoad_runEnds (.inr rfl) s _ (memWrite_runEnds (Ran.refl _ s) (fun _ => rfl) rfl
      (fun t ht => identify_mayWait (.inr rfl) ht (fun _ => rfl)))

theorem mtime_runEnds (a : Nat) (s : State) : RunEnds (.mtime a) (MayWait (.mtime a) s) s (execMtime a s) := by
  have hum (f5 f4 : Byte) (t : State) (ht : Ran (.mtime a) s t) :
      RunEnds (.mtime a) (MayWait (.mtime a) s) s (mtimeHumRead a f5 f4 t) :=
    memRead_runEnds ht (fun _ => rfl) rfl (by decide) (fun _ u _ hu => ⟨u, hu, .value _⟩)
  have meas (f5 : Byte) (t : State) (ht : Ran (.mtime a) s t) :
      RunEnds (.mtime a) (MayWait (.mtime a) s) s (mtimeMeasRead a f5 t) :=
    memRead_runEnds ht (fun _ => rfl) rfl (by decide) (fun _ u _ hu => hum _ _ u hu)
  unfold execMtime
  split
  · exact meas _ s (Ran.refl _ s)
  · exact hum _ _ s (Ran.refl _ s)
  · exact memRead_runEnds (Ran.refl _ s) (fun _ => rfl) rfl (by decide) (fun _ u _ hu => meas _ u hu)

/-- The register of the field a sensor operand selects. -/
theorem sensorField_reg {a : Nat} {f : Field} (h : sensorField a = some f) :
    a ≤ 2 ∧ f.reg = if a = 1 then 0xF2 else 0xF4 := by
  unfold sensorField at h
  split at h <;> first | (cases h; exact ⟨by omega, rfl⟩) | cases h

theorem osrSet_runEnds (a b : Nat) (s : State) : RunEnds (.osrSet a b) (MayWait (.osrSet a b) s) s (execOsrSet a b s) := by
  unfold execOsrSet
  split
  · rename_i f hf hb
    obtain ⟨ha, hreg⟩ := sensorField_reg hf
    have hb5 : b ≤ 5 := by simpa [levelValid] using hb
    have hne : f.reg ≠ 0xD0 := by rw [hreg]; split <;> decide
    have he : f.reg ≠ 0xE0 := by rw [hreg]; split <;> decide
    exact setField_runEnds (fun _ => by simp [inSequence, hf, hb]) (fun _ _ => by simp [inSequence, hf, hb])
      (by simp [readsOf, ha, hb5, hreg]) hne
      (fun x => by
        have : (f.reg == 0xE0) = false := by simpa using he
        simp [allowed, writesOf, ha, hb5, hreg] at this ⊢; split <;> exact .inl (by decide))
      (fun t ht => ⟨t, ht, .value _⟩)
  · exact ⟨s, Ran.refl _ s, .fail _ (by decide)⟩

theorem osrGet_runEnds (a b : Nat) (s : State) : RunEnds (.osrGet a b) (MayWait (.osrGet a b) s) s (execOsrGet a b s) := by
  unfold execOsrGet
  split
  · rename_i f hf
    obtain ⟨ha, hreg⟩ := sensorField_reg hf
    have hne : f.reg ≠ 0xD0 := by rw [hreg]; split <;> decide
    exact fieldGet_runEnds (Ran.refl _ s) (fun _ => by simp [inSequence, hf]) (by simp [readsOf, ha, hreg]) hne
      (fun v t ht => ⟨t, ht, .value _⟩)
  · exact ⟨s, Ran.refl _ s, .fail _ (by decide)⟩

/-! ### Every command -/

/-- What `exec` can do, from any state. -/
theorem exec_ends (i : Instr) (s : State) : RunEnds i (MayWait i s) s (exec i s) := by
  cases i with
  | begin => exact begin_runEnds s
  | reset => exact reset_runEnds s
  | modeGet => exact getField_runEnds (fun _ => rfl) rfl (by decide)
  | modeSet a =>
    exact setField_runEnds (fun _ => rfl) (fun _ _ => rfl) rfl (by decide) (fun _ => rfl)
      (fun t ht => ⟨t, ht, .mode a _ rfl⟩)
  | osrSet a b => exact osrSet_runEnds a b s
  | osrGet a b => exact osrGet_runEnds a b s
  | iirGet => exact getField_runEnds (fun _ => rfl) rfl (by decide)
  | iirSet a =>
    exact setField_runEnds (fun _ => rfl) (fun _ _ => rfl) rfl (by decide) (fun _ => rfl) (fun t ht => ⟨t, ht, .value _⟩)
  | tsbGet => exact getField_runEnds (fun _ => rfl) rfl (by decide)
  | tsbSet a =>
    exact setField_runEnds (fun _ => rfl) (fun _ _ => rfl) rfl (by decide) (fun _ => rfl) (fun t ht => ⟨t, ht, .value _⟩)
  | mtime a => exact mtime_runEnds a s
  | read => exact read_runEnds s

end Sys2Proof.Machine
end

