-- ==== Sys2Proof/Laws/PerInstr.lean ====
section
/-! SUPPORT. Per-instruction laws (LAWS.json). Family TableRow: the word the encoder writes for a command matches the
command's row of the opcode table, that is its OP and RSV fields are those of R67. -/

namespace Sys2Proof.Laws.TableRow

/-- Bits 31:16 of the encoded word are the row's match value (opcode_table.json, mask 0xFFFF0000). -/
def Statement (i : Instr) : Prop := encode i &&& 0xFFFF0000#32 = BitVec.ofNat 32 (opcode i) <<< 24

/-- The operand fields do not reach bits 31:16. -/
theorem fields_masked (op : Byte) (a b : Byte) :
    (op ++ 0#8 ++ a ++ b) &&& 0xFFFF0000#32 = op ++ 0#24 := by
  ext k hk
  simp only [BitVec.getElem_and, BitVec.getElem_append]
  rcases Nat.lt_or_ge k 24 with h | h
  · rcases Nat.lt_or_ge k 16 with h' | h'
    · have : (0xFFFF0000#32)[k] = false := by
        revert h'; revert k; decide
      simp [this, h]
    · have h8 : ¬ k < 8 := by omega
      have h16 : ¬ k - 8 < 8 := by omega
      have h24 : k - 8 - 8 < 8 := by omega
      simp [h, h8, h16, h24]
  · have h8 : ¬ k < 8 := by omega
    have h16 : ¬ k - 8 < 8 := by omega
    have h24 : ¬ k - 8 - 8 < 8 := by omega
    have h24' : ¬ k < 24 := by omega
    have : (0xFFFF0000#32)[k] = true := by
      revert h; revert k; decide
    simp [this, h8, h16, h24, h24']
    congr 1

/-- Placing OP in bits 31:24 is shifting it left by 24. -/
theorem opcode_shift : ∀ n < 13, BitVec.ofNat 8 n ++ 0#24 = BitVec.ofNat 32 n <<< 24 := by decide

/-- The law follows from the opcode being one of the map's. -/
theorem of_opcode (i : Instr) (h : opcode i < 13) : Statement i :=
  (fields_masked _ _ _).trans (opcode_shift _ h)

theorem begin : Statement .begin := of_opcode _ (by simp [opcode])
theorem reset : Statement .reset := of_opcode _ (by simp [opcode])
theorem modeGet : Statement .modeGet := of_opcode _ (by simp [opcode])
theorem modeSet (a : Nat) : Statement (.modeSet a) := of_opcode _ (by simp [opcode])
theorem osrSet (a b : Nat) : Statement (.osrSet a b) := of_opcode _ (by simp [opcode])
theorem osrGet (a b : Nat) : Statement (.osrGet a b) := of_opcode _ (by simp [opcode])
theorem iirGet : Statement .iirGet := of_opcode _ (by simp [opcode])
theorem iirSet (a : Nat) : Statement (.iirSet a) := of_opcode _ (by simp [opcode])
theorem tsbGet : Statement .tsbGet := of_opcode _ (by simp [opcode])
theorem tsbSet (a : Nat) : Statement (.tsbSet a) := of_opcode _ (by simp [opcode])
theorem mtime (a : Nat) : Statement (.mtime a) := of_opcode _ (by simp [opcode])
theorem read : Statement .read := of_opcode _ (by simp [opcode])

end Sys2Proof.Laws.TableRow
end

