-- ==== Sys2Proof/Laws/Reading.lean ====
section
/-! SUPPORT. READ's status polling, said once: a clear poll goes on to the burst, a busy one counts, the last of a finite
POLL_LIMIT raises TIMEOUT (R86, R89). -/

namespace Sys2Proof.Machine

/-- READ's state after one answered status poll. -/
def polled (b : Byte) (rest : List Input) (s : State) : State := record (.read 0xF3 1 [b] none) { s with inputs := rest }

/-- A poll with both bits 0. -/
theorem pollStatus_clear (fuel n : Nat) (s : State) {ack : Bool} {b : Byte} {rest : List Input}
    (hin : s.inputs = .sensor ack [b] :: rest) (hb : b &&& busyMask = 0) :
    pollStatus fuel n s = readBurst (polled b rest s) := by
  unfold pollStatus
  rw [memRead_answered .read (.poll n) 0xF3 1 _ s hin rfl]
  exact if_pos hb

/-- The poll that reaches a finite POLL_LIMIT. -/
theorem pollStatus_exhausted (fuel n : Nat) (s : State) {ack : Bool} {b : Byte} {rest : List Input}
    (hin : s.inputs = .sensor ack [b] :: rest) (hb : b &&& busyMask ≠ 0) (hx : pollsExhausted s.cfg (n + 1) = true) :
    pollStatus fuel n s = .next (raise .timeout (polled b rest s)) := by
  unfold pollStatus
  rw [memRead_answered .read (.poll n) 0xF3 1 _ s hin rfl]
  exact (if_neg hb).trans (if_pos hx)

/-- A busy poll with more to come. -/
theorem pollStatus_busy (fuel n : Nat) (s : State) {ack : Bool} {b : Byte} {rest : List Input}
    (hin : s.inputs = .sensor ack [b] :: rest) (hb : b &&& busyMask ≠ 0) (hx : pollsExhausted s.cfg (n + 1) = false) :
    pollStatus (fuel + 1) n s = pollStatus fuel (n + 1) (polled b rest s) := by
  rw [pollStatus, memRead_answered .read (.poll n) 0xF3 1 _ s hin rfl]
  exact (if_neg hb).trans (if_neg (by simpa using hx))

/-- With no answer next READ waits for its poll. -/
theorem pollStatus_waits (fuel n : Nat) (s : State) (hin : ∀ ack bs rest, s.inputs ≠ .sensor ack bs :: rest) :
    pollStatus fuel n s = .next (waitAt .read (.poll n) s) := by
  unfold pollStatus
  exact transact_waits _ _ _ _ _ s hin

/-- Fuel beyond the number of inputs makes no difference. -/
theorem pollStatus_fuel (fuel fuel' : Nat) :
    ∀ (n : Nat) (s : State), s.inputs.length ≤ fuel → s.inputs.length ≤ fuel' →
      pollStatus fuel n s = pollStatus fuel' n s := by
  induction fuel generalizing fuel' with
  | zero =>
    intro n s h _
    have hin : s.inputs = [] := List.length_eq_zero_iff.mp (Nat.le_zero.mp h)
    rw [pollStatus_waits _ _ s (by simp [hin]), pollStatus_waits _ _ s (by simp [hin])]
  | succ fuel ih =>
    intro n s h h'
    cases fuel' with
    | zero =>
      have hin : s.inputs = [] := List.length_eq_zero_iff.mp (Nat.le_zero.mp h')
      rw [pollStatus_waits _ _ s (by simp [hin]), pollStatus_waits _ _ s (by simp [hin])]
    | succ fuel' =>
      unfold pollStatus memRead
      apply transact_congr
      intro ack bs rest hin _
      simp only [hin, List.length_cons, Nat.add_le_add_iff_right] at h h'
      dsimp only
      split
      · rfl
      · split
        · rfl
        · exact ih fuel' (n + 1) _ h h'

end Sys2Proof.Machine
end

