-- ==== Sys2Proof/Tests/Slice0.lean ====
section
/-! SUPPORT. The model's own tests. Expected results come from spec/95_test_vectors.md (the vector's id is named) or are
written out by hand from the rule named. The second part gives, for every statement with hypotheses, a concrete state and
operands that meet them together. -/

namespace Sys2Proof.Tests

open Sys2Proof.Machine

/-! ### Helpers -/

/-- Bytes from numbers. -/
def bytes (l : List Nat) : List Byte := l.map (BitVec.ofNat 8)

/-- A successful answer of the sensor port. -/
def ans (l : List Nat) : Input := .sensor true (bytes l)

/-- The state after reset with these answers next. -/
def ready (ins : List Input) : State := { State.reset with inputs := ins }

/-- The next state, where there is one. -/
def next? : Result → Option State
  | .next t => some t
  | .fault _ => none
  | .refused _ => none

/-- The step stops with this fault. -/
def faults (r : Result) (f : Fault) : Bool :=
  match r with
  | .fault g => f == g
  | .next _ => false
  | .refused _ => false

/-- STATUS.CODE, RES0 and the sensor-port transactions of a result. -/
def shows (r : Result) : Option (Code × Word × List Event) :=
  (next? r).map fun t => (t.code, t.res0, t.history.filter Event.isTransaction)

/-- The register image of `ds` (95_test_vectors, conventions). -/
def dsTP : List Nat := [0x70, 0x6B, 0x43, 0x67, 0x18, 0xFC, 0x7D, 0x8E, 0x43, 0xD6, 0xD0, 0x0B,
  0x27, 0x0B, 0x8C, 0x00, 0xF9, 0xFF, 0x8C, 0x3C, 0xF8, 0xC6, 0x70, 0x17]
def dsH : List Nat := [0x6A, 0x01, 0x00, 0x13, 0x29, 0x03, 0x1E]

/-- The calibration set `ds` of 95_test_vectors. -/
def ds : Cal where
  t1 := 27504
  t2 := 26435
  t3 := BitVec.ofInt 16 (-1000)
  p1 := 36477
  p2 := BitVec.ofInt 16 (-10685)
  p3 := 3024
  p4 := 2855
  p5 := 140
  p6 := BitVec.ofInt 16 (-7)
  p7 := 15500
  p8 := BitVec.ofInt 16 (-14600)
  p9 := 6000
  h1 := 75
  h2 := 362
  h3 := 0
  h4 := 313
  h5 := 50
  h6 := 30

/-- `burst0` of 95_test_vectors. -/
def burst0 : List Nat := [0x65, 0x5A, 0xC0, 0x7E, 0xED, 0x00, 0x75, 0x30]

/-! ### Decoding: words written out bit by bit from R65 and R67 -/

theorem test_decode_begin : decode 0b00000001_00000000_10101011_11001101 = .command .begin := by decide
theorem test_decode_reset : decode 0b00000010_00000000_00000000_00000000 = .command .reset := by decide
theorem test_decode_modeGet : decode 0b00000011_00000000_00000000_00000000 = .command .modeGet := by decide
theorem test_decode_modeSet : decode 0b00000100_00000000_00000010_00000000 = .command (.modeSet 2) := by decide
theorem test_decode_osrSet : decode 0b00000101_00000000_00000010_00000011 = .command (.osrSet 2 3) := by decide
theorem test_decode_osrGet : decode 0b00000110_00000000_00000001_00000001 = .command (.osrGet 1 1) := by decide
theorem test_decode_iirGet : decode 0b00000111_00000000_00000000_00000000 = .command .iirGet := by decide
theorem test_decode_iirSet : decode 0b00001000_00000000_00001100_00000000 = .command (.iirSet 12) := by decide
theorem test_decode_tsbGet : decode 0b00001001_00000000_00000000_00000000 = .command .tsbGet := by decide
theorem test_decode_tsbSet : decode 0b00001010_00000000_11111111_00000000 = .command (.tsbSet 255) := by decide
theorem test_decode_mtime : decode 0b00001011_00000000_00000001_00000000 = .command (.mtime 1) := by decide
theorem test_decode_read : decode 0b00001100_00000000_00000000_00000001 = .command .read := by decide
/-- V-E01, V-E02. -/
theorem test_decode_undefined :
    decode 0x00000000 = .rejected .undefinedOpcode ∧ decode 0x0D000000 = .rejected .undefinedOpcode := by decide
/-- V-E04, V-E05. -/
theorem test_decode_reserved :
    decode 0x05010000 = .rejected .reservedBits ∧ decode 0x0C800000 = .rejected .reservedBits := by decide
/-- R69: `OSR.SET P, X4` encodes to 0x05000203. -/
theorem test_encode_osrSet : encode (.osrSet 2 3) = 0x05000203 := by decide

/-! ### WellFormed: an ill-formed term for each check -/

theorem test_wf_modeSet : ¬ (Instr.modeSet 256).wf := by decide
theorem test_wf_osrSet_sensor : ¬ (Instr.osrSet 256 0).wf := by decide
theorem test_wf_osrSet_level : ¬ (Instr.osrSet 0 256).wf := by decide
theorem test_wf_osrGet_sensor : ¬ (Instr.osrGet 256 0).wf := by decide
theorem test_wf_osrGet_actual : ¬ (Instr.osrGet 0 256).wf := by decide
theorem test_wf_iirSet : ¬ (Instr.iirSet 256).wf := by decide
theorem test_wf_tsbSet : ¬ (Instr.tsbSet 256).wf := by decide
theorem test_wf_mtime : ¬ (Instr.mtime 256).wf := by decide
theorem test_wf_boundary : (Instr.osrSet 255 255).wf := by decide
theorem test_inRange_level : ¬ (Instr.osrSet 2 6).inRange ∧ (Instr.osrSet 2 5).inRange := by decide

/-! ### Commands -/

/-- V-C01: BEGIN with the `ds` image. -/
theorem test_begin_loads :
    (next? (exec .begin (ready [ans [0x60], ans dsTP, ans [0x4B], ans dsH]))).map (fun t => (t.cal, t.res0, t.seq))
      = some (ds, 1, .idle) := by decide

/-- V-C06: the status of the identity read is checked before its byte. -/
theorem test_begin_noAck :
    shows (exec .begin (ready [.sensor false [0x60]]))
      = some (.failNodev, 0, [.read 0xD0 1 [0x60] (some false)]) := by decide

/-- V-C08: RESET with identity byte 0x58; the reset write stays made. -/
theorem test_reset_noDevice :
    shows (exec .reset (ready [ans [], ans [0x58]]))
      = some (.failNodev, 0, [.write 0xE0 0xB6, .read 0xD0 1 [0x58] (some true)]) := by decide

/-- V-C02: H4 and H5 are sign-extended from bit 11. -/
theorem test_assemble_nibbles :
    let c := assemble (bytes dsTP) [0x4B] (bytes [0x6A, 0x01, 0x00, 0x80, 0x0F, 0xFF, 0xFF])
    (c.h4.toInt, c.h5.toInt, c.h6.toInt) = (-2033, -16, -1) := by decide

/-- V-M13. -/
theorem test_modeGet : shows (exec .modeGet (ready [ans [0x4F]])) = some (.ok, 3, [.read 0xF4 1 [0x4F] none]) := by decide

/-- V-M01: A[7:2] is discarded. -/
theorem test_modeSet_masks :
    shows (exec (.modeSet 0xFF) (ready [ans [0xB4], ans []]))
      = some (.ok, 3, [.read 0xF4 1 [0xB4] none, .write 0xF4 0xB7]) := by decide

/-- R79's example: MODE.SET FORCED2 sets SMODE = 2. -/
theorem test_modeSet_records :
    (next? (exec (.modeSet 2) (ready [ans [0x24], ans []]))).map (·.smode) = some 2 := by decide

/-- V-M03. -/
theorem test_osrSet_pressureOff :
    shows (exec (.osrSet 2 0) (ready [ans [0xBF], ans []]))
      = some (.ok, 1, [.read 0xF4 1 [0xBF] none, .write 0xF4 0xA3]) := by decide

/-- V-M07: level 6 is refused before any transaction. -/
theorem test_osrSet_invalid : shows (exec (.osrSet 0 6) (ready [ans [0xBF]])) = some (.failInvalid, 0, []) := by decide

/-- V-M05 with c = 6: the multiplier of a reserved code is 16. -/
theorem test_osrGet_reserved : shows (exec (.osrGet 1 1) (ready [ans [6]])) = some (.ok, 16, [.read 0xF2 1 [6] none]) := by
  decide

/-- L3-2 step 8. -/
theorem test_osrGet_raw : shows (exec (.osrGet 2 0) (ready [ans [0x4F]])) = some (.ok, 3, [.read 0xF4 1 [0x4F] none]) := by
  decide

/-- L3-2 step 5. -/
theorem test_iirGet : shows (exec .iirGet (ready [ans [0xB1]])) = some (.ok, 4, [.read 0xF5 1 [0xB1] none]) := by decide

/-- V-M10. -/
theorem test_iirSet :
    shows (exec (.iirSet 0x0C) (ready [ans [0xE3], ans []]))
      = some (.ok, 4, [.read 0xF5 1 [0xE3] none, .write 0xF5 0xF3]) := by decide

/-- L3-2 step 6. -/
theorem test_tsbGet : shows (exec .tsbGet (ready [ans [0xB1]])) = some (.ok, 5, [.read 0xF5 1 [0xB1] none]) := by decide

/-- L3-2 step 2. -/
theorem test_tsbSet :
    shows (exec (.tsbSet 5) (ready [ans [0x11], ans []]))
      = some (.ok, 5, [.read 0xF5 1 [0x11] none, .write 0xF5 0xB1]) := by decide

/-- V-D11, typical set. -/
theorem test_mtime_typ :
    (next? (exec (.mtime 0) (ready [ans [0xB1], ans [0x4F], ans [0x05]]))).map (·.res0) = some 1046000 := by decide

/-- V-D04, maximum set, codes 7. -/
theorem test_mtime_max :
    (next? (exec (.mtime 1) (ready [ans [0xA0], ans [0xFC], ans [0x07]]))).map (·.res0) = some 1112800 := by decide

/-- L3-1 step 6: two busy polls, no re-trigger; T, H and P. -/
theorem test_read_reading :
    (next? (exec .read { ready [ans [0x25], ans [0x08], ans [0x01], ans [0x00], ans burst0] with cal := ds, smode := 1 })).map
      (fun t => (t.res0, t.res1, t.res2, t.tFine)) = some (2508, 5499, 100653, 128422) := by decide

/-- V-R05: re-trigger, then TIMEOUT at the second busy poll; the write stays. -/
theorem test_read_timeout :
    shows (exec .read { ready [ans [0x24], ans [0x24], ans [], ans [0x08], ans [0x08]] with
        smode := 1, cfg := { Config.default with pollLimit := some 2 } })
      = some (.timeout, 0, [.read 0xF4 1 [0x24] none, .read 0xF4 1 [0x24] none, .write 0xF4 0x25,
          .read 0xF3 1 [0x08] none, .read 0xF3 1 [0x08] none]) := by decide

/-- V-T04, V-T07, V-P03, V-P05, V-H03, V-H06: wrapping, floors, the zero denominator, a negative pressure, both clamps. -/
theorem test_datapath_corners :
    compT { Cal.zero with t2 := 0x8000, t3 := 0x8000 } 0xFFFFF = (80, 2) ∧
    (compT ds 400000).2.toInt = -1264 ∧
    compP { ds with p2 := 0x8000, p3 := 0 } 415148 1176576 = 0 ∧
    (compP ds 1048575 128422).toInt = -6631 ∧
    (humRaw ds 20188 128422).toInt = -47405 ∧ compH ds 20188 128422 = 0 ∧ compH ds 38147 128422 = 10000 := by decide

/-! ### The host port and the step -/

/-- V-E12: CAL2 and CAL0. -/
theorem test_hostRead_cal :
    (next? (step { ready [.hostRead 0x48 32, .hostRead 0x40 32] with cal := ds })).bind (fun t => (next? (step t)).map (·.replies))
      = some [0xFFFFFC18, 0x00006B70] := by decide

/-- V-E10: a word written while BUSY is dropped. -/
theorem test_hostWrite_dropped :
    (next? (step { ready [.hostWrite 0 32 0x02000000] with seq := .busy .begin .start, cmd := 0x01000000 })).map
      (fun t => (t.cmd, t.seq)) = some (0x01000000, .busy .begin .start) := by decide

/-- V-E01: an illegal word; STATUS then reads 6 (CODE 3, BUSY 0). -/
theorem test_illegal_word :
    (next? (step (State.reset.withFetchWord 32 0))).map (fun t => (t.code, statusWord t, t.cmd)) = some (.illegal, 6, 0) := by
  decide

/-- R17, R62: a word written to CMD starts its command, which waits, BUSY, for its first transaction. -/
theorem test_step_starts :
    (next? (step (State.reset.withFetchWord 32 0x01000000))).map (fun t => (t.cmd, statusWord t, t.request))
      = some (0x01000000, 1, some (.read 0xD0 1)) := by decide

/-- R126 in a hang: the power-on reset. -/
theorem test_powerOn :
    (next? (step { ready [.powerOn] with seq := .busy .read (.poll 7), cal := ds, smode := 2 })).map
      (fun t => (t.seq, t.smode, t.cal)) = some (.idle, 0, Cal.zero) := by decide

/-- V-E09 and R69: a pseudo-instruction, a spelled and a numeral operand, an error. -/
theorem test_assembler :
    assembleWord "OSR.ACT P" = some 0x06000201 ∧ assembleWord "  MODE.SET FORCED2 ; x" = some 0x04000200 ∧
    assembleWord "OSR.SET 0x03 , X1" = some 0x05000301 ∧ assembleLine "IIR.SET 256" = .error ∧
    assembleLine "; only a comment" = .blank := by decide

/-! ### Witnesses: a concrete state and operands for the hypotheses of each statement -/

/-- An idle state with a host write of `w` to CMD next. -/
def written (w : Word) : State := ready [.hostWrite 0 32 w]

/-- A state in which BEGIN waits for its identity read. -/
def beginning : State := { State.reset with cmd := 0x01000000, seq := .busy .begin .start }

/-- A state in which READ polls, one busy poll seen. -/
def polling : State := { State.reset with cmd := 0x0C000000, seq := .busy .read (.poll 1) }

theorem inv_beginning : Inv beginning := ⟨by decide, by decide, by decide, by decide⟩
theorem inv_polling : Inv polling := ⟨by decide, by decide, by decide, by decide⟩

theorem witness_PowerOnResetAtAnyTime : ∃ (s : State) (rest : List Input), s.inputs = .powerOn :: rest :=
  ⟨{ beginning with inputs := [.powerOn] }, [], by decide⟩

theorem witness_DecodeEncodeRoundTrip : (Instr.osrSet 255 255).wf ∧ (Instr.modeSet 255).wf ∧ Instr.begin.wf := by decide

theorem witness_EncodeDecodeDropsIgnoredFields :
    decode 0x01FF = .rejected .undefinedOpcode ∧ decode 0x0100ABCD = .command .begin ∧
    decode 0x0400FFFF = .command (.modeSet 255) ∧ decode 0x0800FF01 = .command (.iirSet 255) ∧
    decode 0x0A00FF01 = .command (.tsbSet 255) ∧ decode 0x0B00FF01 = .command (.mtime 255) ∧
    decode 0x0500FFFF = .command (.osrSet 255 255) ∧ decode 0x0600FFFF = .command (.osrGet 255 255) := by decide

theorem witness_StepRunsDecodedCommand :
    (written 0x03000000).seq = .idle ∧
    (written 0x03000000).inputs = .hostWrite (written 0x03000000).cfg.hostBase 32 0x03000000 :: [] ∧
    decode 0x03000000 = .command .modeGet := by decide

theorem witness_StepResumesCommandInFlight :
    ({ beginning with inputs := [ans [0x60]] } : State).seq = .busy .begin .start ∧
    ({ beginning with inputs := [ans [0x60]] } : State).inputs = .sensor true [0x60] :: [] := by decide

theorem witness_IllegalWordIsRaised :
    (written 0x05010000).seq = .idle ∧
    (written 0x05010000).inputs = .hostWrite (written 0x05010000).cfg.hostBase 32 0x05010000 :: [] ∧
    (0x05010000#32).extractLsb' 16 8 ≠ 0#8 ∧ ((0x00000000#32).extractLsb' 24 8).toNat = 0 ∧
    13 ≤ ((0x0D000000#32).extractLsb' 24 8).toNat := by decide

theorem witness_HostWriteDroppedWhileBusy :
    ({ beginning with inputs := [.hostWrite 0 32 0x02000000] } : State).seq = .busy .begin .start ∧
    ({ beginning with inputs := [.hostWrite 0 32 0x02000000] } : State).inputs = .hostWrite 0 32 0x02000000 :: [] := by
  decide

theorem witness_HostWriteElsewhereDoesNothing :
    (255 < 256 ∧ (255 ≠ 0 ∨ 8 ≠ 32 ∨ State.reset.seq ≠ .idle) ∧
      (ready [.hostWrite 255 8 0]).inputs = .hostWrite ((ready []).cfg.hostBase + 255) 8 0 :: []) ∧
    (0 < 256 ∧ ((0 : Nat) ≠ 0 ∨ 16 ≠ 32 ∨ State.reset.seq ≠ .idle)) ∧
    (0 < 256 ∧ ((0 : Nat) ≠ 0 ∨ 32 ≠ 32 ∨ beginning.seq ≠ .idle)) := by decide

theorem witness_OtherHostReadsReturnZero :
    (0 < 256 ∧ (16 ≠ 32 ∨ 0 % 4 ≠ 0 ∨ (0x28 ≤ 0 ∧ 0 < 0x40) ∨ 0x88 ≤ 0)) ∧
    (2 < 256 ∧ (32 ≠ 32 ∨ 2 % 4 ≠ 0 ∨ (0x28 ≤ 2 ∧ 2 < 0x40) ∨ 0x88 ≤ 2)) ∧
    (0x28 < 256 ∧ (32 ≠ 32 ∨ 0x28 % 4 ≠ 0 ∨ (0x28 ≤ 0x28 ∧ 0x28 < 0x40) ∨ 0x88 ≤ 0x28)) ∧
    (0x3C < 256 ∧ (32 ≠ 32 ∨ 0x3C % 4 ≠ 0 ∨ (0x28 ≤ 0x3C ∧ 0x3C < 0x40) ∨ 0x88 ≤ 0x3C)) ∧
    (0xFC < 256 ∧ (32 ≠ 32 ∨ 0xFC % 4 ≠ 0 ∨ (0x28 ≤ 0xFC ∧ 0xFC < 0x40) ∨ 0x88 ≤ 0xFC)) := by decide

theorem witness_BeginChecksIdentityAndLoads :
    let s := ready [ans [0x60], ans dsTP, ans [0x4B], ans dsH]
    let f := ready [.sensor false [0x60]]
    (s.pos = .start ∧ (bytes dsTP).length = 24 ∧ (bytes dsH).length = 7 ∧
      s.inputs = .sensor true [0x60] :: .sensor true (bytes dsTP) :: .sensor true [0x4B] :: .sensor true (bytes dsH) :: []) ∧
    (f.pos = .start ∧ (false = false ∨ (0x60 : Byte) ≠ 0x60) ∧ f.inputs = .sensor false [0x60] :: []) ∧
    (true = false ∨ (0x58 : Byte) ≠ 0x60) := by decide

theorem witness_ResetWritesCodeThenBegins :
    let s := ready [ans [], ans [0x60], ans dsTP, ans [0x4B], ans dsH]
    let f := ready [ans [], ans [0x58]]
    (s.pos = .start ∧ (bytes dsTP).length = 24 ∧ (bytes dsH).length = 7 ∧
      s.inputs = .sensor true [] :: .sensor true [0x60] :: .sensor true (bytes dsTP) :: .sensor true [0x4B]
        :: .sensor true (bytes dsH) :: []) ∧
    (f.pos = .start ∧ (true = false ∨ (0x58 : Byte) ≠ 0x60) ∧ f.inputs = .sensor true [] :: .sensor true [0x58] :: []) := by
  decide

theorem witness_FieldWritesKeepOtherBits :
    (tsbField, 0xF5#8, 5, 3) ∈ [(osrsT, 0xF4#8, 5, 3), (osrsH, 0xF2#8, 0, 3), (osrsP, 0xF4#8, 2, 3),
      (modeField, 0xF4#8, 0, 2), (filterField, 0xF5#8, 2, 3), (tsbField, 0xF5#8, 5, 3)] ∧ 7 < 8 := by decide

theorem witness_ModeGetReturnsModeField :
    (ready [ans [0x4F]]).pos = .start ∧ (ready [ans [0x4F]]).inputs = .sensor true [0x4F] :: [] := by decide

/-- For ModeSetWritesAndRecords, OsrSetValidatesAndWritesLevel (all three sensors, both ends of the level) and
ConfigSettersWriteCodes. -/
theorem witness_setters :
    ((ready [ans [0xB4], ans []]).pos = .start ∧
      (ready [ans [0xB4], ans []]).inputs = .sensor true [0xB4] :: .sensor true [] :: []) ∧
    (0, 0xF4#8, 0x1F#8, 5) ∈ [(0, 0xF4#8, 0x1F#8, 5), (1, 0xF2#8, 0xF8#8, 0), (2, 0xF4#8, 0xE3#8, 2)] ∧
    (2, 0xF4#8, 0xE3#8, 2) ∈ [(0, 0xF4#8, 0x1F#8, 5), (1, 0xF2#8, 0xF8#8, 0), (2, 0xF4#8, 0xE3#8, 2)] ∧
    0 ≤ 5 ∧ 5 ≤ 5 ∧ (2 < 3 ∨ 5 < 0) ∧ (2 < 0 ∨ 5 < 6) := by decide

theorem witness_ConfigSettersWriteCodes :
    (Instr.iirSet = Instr.iirSet ∧ (0xE3 : Byte) = 0xE3 ∧ 2 = 2) ∧
    (Instr.tsbSet = Instr.tsbSet ∧ (0x1F : Byte) = 0x1F ∧ 5 = 5) := ⟨⟨rfl, rfl, rfl⟩, ⟨rfl, rfl, rfl⟩⟩

/-- For OsrGetReturnsCodeOrMultiplier and ConfigGettersReturnCodes. -/
theorem witness_getters :
    (1, 0xF2#8, 0) ∈ [(0, 0xF4#8, 5), (1, 0xF2#8, 0), (2, 0xF4#8, 2)] ∧ 2 < 3 ∧
    (Instr.iirGet, 2) ∈ [(Instr.iirGet, 2), (Instr.tsbGet, 5)] ∧
    (Instr.tsbGet, 5) ∈ [(Instr.iirGet, 2), (Instr.tsbGet, 5)] ∧
    (ready [ans [0xB1]]).pos = .start ∧ (ready [ans [0xB1]]).inputs = .sensor true [0xB1] :: [] := by decide

/-- For SetThenGetReturnsTheSetting: OSR.SET P, X4 on 0x57 writes 0x4F (R80's example), which OSR.GET P, RAW reads back. -/
theorem witness_SetThenGetReturnsTheSetting :
    ∃ t fin, exec (.osrSet 2 3) (ready [ans [0x57], ans []]) = .next t ∧
      t.history = [.read 0xF4 1 [0x57] none] ++ [.write 0xF4 0x4F, fin] ∧ t.seq = .idle ∧
      (ready [ans [0x57], ans []]).history.length ≤ [Event.read 0xF4 1 [0x57] none].length ∧
      (ready [ans [0x4F]]).pos = .start ∧ (ready [ans [0x4F]]).inputs = .sensor true [0x4F] :: [] :=
  ⟨_, _, rfl, rfl, rfl, by decide, rfl, rfl⟩

theorem witness_MtimeComputesDuration :
    let s := ready [ans [0xB1], ans [0x4F], ans [0x05]]
    s.pos = .start ∧ s.inputs = .sensor true [0xB1] :: .sensor true [0x4F] :: .sensor true [0x05] :: [] := by decide

theorem witness_DurationIsMonotone :
    (0 : BitVec 3) ≤ 7 ∧ (5 : BitVec 3) ≤ 6 ∧ (1 : BitVec 3) ≤ 1 ∧
      measSum Config.default Config.default.max 5 7 6 1 < 2 ^ 32 := by decide

/-- For ReadDeliversReading: the re-trigger in full, one busy poll below a limit of 2. -/
theorem witness_ReadDeliversReading :
    let s := { ready ([ans [0x24], ans [0x24], ans []] ++ pollAnswers [(true, 0x08)] ++
      .sensor true [0xF6] :: .sensor true (bytes burst0) :: []) with
        smode := 2, cfg := { Config.default with pollLimit := some 2 } }
    s.pos = .start ∧ s.cfg.ovf = .wrap ∧
    ReTrigger s [ans [0x24], ans [0x24], ans []]
      [.read 0xF4 1 [0x24] none, .read 0xF4 1 [0x24] none, .write 0xF4 ((0x24 &&& 0xFC) ||| s.smode.setWidth 8)] ∧
    (∀ q ∈ [(true, (0x08 : Byte))], q.2 &&& 0x09 ≠ 0) ∧
    (∀ k, s.cfg.pollLimit = some k → [(true, (0x08 : Byte))].length < k) ∧
    (0xF6 : Byte) &&& 0x09 = 0 ∧ (bytes burst0).length = 8 ∧
    s.inputs = [ans [0x24], ans [0x24], ans []] ++ pollAnswers [(true, 0x08)] ++
      .sensor true [0xF6] :: .sensor true (bytes burst0) :: [] :=
  ⟨rfl, rfl, .inr (.inr ⟨.inr rfl, true, 0x24, true, 0x24, true, [], by decide, rfl, rfl⟩), by simp,
    by intro k hk; injection hk with hk; simp [← hk], by decide, by decide, rfl⟩

/-- The other two cases of the re-trigger. -/
theorem witness_ReTrigger_cases :
    ReTrigger State.reset [] [] ∧
    ReTrigger { State.reset with smode := 1 } [.sensor true [0x25]] [.read 0xF4 1 [0x25] none] :=
  ⟨.inl ⟨by decide, by decide, rfl, rfl⟩, .inr (.inl ⟨.inl rfl, true, 0x25, by decide, rfl, rfl⟩)⟩

/-- For ReadTimesOut (limit 2, two busy polls) and, with no limit, for ReadPollsForEver. -/
theorem witness_ReadTimesOut :
    let s := { ready ([] ++ pollAnswers [(true, 0x08), (false, 0x01)] ++ []) with
      cfg := { Config.default with pollLimit := some 2 } }
    s.pos = .start ∧ ReTrigger s [] [] ∧ s.cfg.pollLimit = some 2 ∧ 1 ≤ 2 ∧ [(true, (0x08 : Byte)), (false, 0x01)].length = 2 ∧
    (∀ q ∈ [(true, (0x08 : Byte)), (false, 0x01)], q.2 &&& 0x09 ≠ 0) ∧
    s.inputs = [] ++ pollAnswers [(true, 0x08), (false, 0x01)] ++ [] :=
  ⟨rfl, .inl ⟨by decide, by decide, rfl, rfl⟩, rfl, by decide, rfl, by simp, rfl⟩

theorem witness_ReadPollsForEver :
    let s := ready ([] ++ pollAnswers [(true, 0x09)])
    s.pos = .start ∧ ReTrigger s [] [] ∧ s.cfg.pollLimit = none ∧
    (∀ q ∈ [(true, (0x09 : Byte))], q.2 &&& 0x09 ≠ 0) ∧ s.inputs = [] ++ pollAnswers [(true, 0x09)] :=
  ⟨rfl, .inl ⟨by decide, by decide, rfl, rfl⟩, rfl, by simp, rfl⟩

/-- A state in which READ waits for its burst, with OVF_MODEL = fault. -/
def bursting (c : Cal) (d : List Nat) : State :=
  { State.reset with cal := c, seq := .busy .read .burst, cfg := { Config.default with ovf := .fault }, inputs := [ans d] }

/-- The calibration and raw value of V-T04, whose first product leaves 32 bits. -/
def overflowing : State := bursting { Cal.zero with t2 := 0x8000, t3 := 0x8000 } [0, 0, 0, 0xFF, 0xFF, 0xF0, 0, 0]

theorem witness_FaultModelStopsExactlyOnOverflow :
    (overflowing.pos = .burst ∧ overflowing.cfg.ovf = .fault ∧
      noOverflow overflowing.cal (adcT (bytes [0, 0, 0, 0xFF, 0xFF, 0xF0, 0, 0])).toInt
        (adcP (bytes [0, 0, 0, 0xFF, 0xFF, 0xF0, 0, 0])).toInt (adcH (bytes [0, 0, 0, 0xFF, 0xFF, 0xF0, 0, 0])).toInt = false) ∧
    (noOverflow ds (adcT (bytes burst0)).toInt (adcP (bytes burst0)).toInt (adcH (bytes burst0)).toInt = true ∧
      (bursting ds burst0).inputs = .sensor true (bytes burst0) :: [] ∧ (bytes burst0).length = 8) := by decide

/-- The fault of OVF_MODEL = fault is reached. -/
theorem test_overflow_fault : faults (exec .read overflowing) .intermediateOverflow = true := by decide

theorem witness_ReadIgnoresEarlierReadings :
    ∃ t, exec .read { ready [ans [0x00], ans burst0] with cal := ds } = .next t ∧ t.seq = .idle ∧ t.code = .ok :=
  ⟨_, rfl, rfl, rfl⟩

/-- For ZeroDenominatorGivesZero (both clauses), HumidityIsBounded (both clamps) and AgreesWithReference. -/
theorem witness_datapath :
    { ds with p1 := 0 }.p1 = 0 ∧ pressDen { ds with p2 := 0x8000, p3 := 0 } 1176576 = 0 ∧
    (0xFFFFFFFF : Word).toInt < 0 ∧ 419430400 ≤ (419430400 : Word).toInt ∧
    noOverflow ds (519888 : Word).toInt (415148 : Word).toInt (30000 : Word).toInt = true := by decide

theorem witness_StepKeepsInvariant :
    ∃ t, Inv { polling with inputs := [ans [0x08]] } ∧ step { polling with inputs := [ans [0x08]] } = .next t :=
  ⟨_, ⟨by decide, by decide, by decide, by decide⟩, rfl⟩

theorem witness_OnlyCalibrationLoadWritesCal :
    ∃ t, step { beginning with inputs := [ans [0x60], ans dsTP, ans [0x4B], ans dsH] } = .next t ∧ t.cal ≠ beginning.cal :=
  ⟨_, rfl, by decide⟩

theorem witness_OnlyModeSetWritesSmode :
    ∃ t, step (ready [.hostWrite 0 32 0x04000300, ans [0x00], ans []]) = .next t ∧ t.smode ≠ State.reset.smode :=
  ⟨_, rfl, by decide⟩

theorem witness_OnlyReadWritesReadings :
    ∃ t, step { polling with cal := ds, inputs := [ans [0x00], ans burst0] } = .next t ∧
      (t.tFine ≠ polling.tFine ∨ t.tout ≠ polling.tout ∨ t.hout ≠ polling.hout ∨ t.pout ≠ polling.pout) :=
  ⟨_, rfl, by decide⟩

theorem witness_FailuresLeaveEngineRegisters :
    ∃ t, exec (.osrSet 3 0) (ready []) = .next t ∧ t.seq = .idle ∧ t.code ≠ .ok := ⟨_, rfl, rfl, by decide⟩

theorem witness_NothingCommitsWhileBusy :
    ∃ t, step { beginning with inputs := [ans [0x60]] } = .next t ∧ t.seq ≠ .idle := ⟨_, rfl, by decide⟩

theorem witness_CommandsPerformOnlyTheirTransactions : ∃ t, exec .tsbGet (ready [ans [0xB1]]) = .next t := ⟨_, rfl⟩

theorem witness_AnswerCompletesOutstandingTransaction :
    ∃ t, Inv { beginning with inputs := [ans [0x60]] } ∧ beginning.seq ≠ .idle ∧
      beginning.request = some (.read 0xD0 1) ∧ (∀ a n, Request.read 0xD0 1 = .read a n → (bytes [0x60]).length = n) ∧
      step { beginning with inputs := [ans [0x60]] } = .next t :=
  ⟨_, ⟨by decide, by decide, by decide, by decide⟩, by decide, by decide, by intro a n h; cases h; rfl, rfl⟩

theorem witness_UnansweredTransactionHangs : beginning.seq = .busy .begin .start ∧ beginning.inputs = [] := by decide

/-- The hang is reached. -/
theorem test_hang : faults (step beginning) .hang = true := by decide

theorem witness_IdleEngineWaits : State.reset.seq = .idle ∧ State.reset.inputs = [] := by decide

theorem witness_CommandsNeverStop : State.reset.cfg.ovf = .wrap := by decide

theorem witness_ResumingIsSeamless :
    ∃ t, (∀ x ∈ [ans [0x60]], ∃ ack bs, x = Input.sensor ack bs) ∧
      exec .begin { beginning with inputs := [ans [0x60]] } = .next t ∧ t.seq = .busy .begin .calTP ∧ t.inputs = [] ∧
      t.history.length = beginning.history.length + [ans [0x60]].length :=
  ⟨_, by simp [ans], rfl, rfl, rfl, rfl⟩

theorem witness_StepTakesAnInput :
    ∃ t, Inv { polling with inputs := [.hostRead 4 32] } ∧ ({ polling with inputs := [.hostRead 4 32] } : State).inputs ≠ [] ∧
      step { polling with inputs := [.hostRead 4 32] } = .next t :=
  ⟨_, ⟨by decide, by decide, by decide, by decide⟩, by decide, rfl⟩

end Sys2Proof.Tests
end

section
/-! The statements of 00_scope R5: the parameters are arguments of the model, and what OVF_MODEL = fault stops. -/

namespace Sys2Proof.Machine

/-! ### The parameters -/

/-- However a command's run ends, it commits no parameter. -/
theorem Ends.cfg_eq {i : Instr} {ok : Pos → Prop} {u t : State} {r : Result} (h : Ends i ok u r) (hr : r = .next t) :
    t.cfg = u.cfg := by
  cases h with
  | overflow => cases hr
  | _ => cases hr; rfl

/-- Running a command keeps the parameters. -/
theorem exec_keeps_cfg {i : Instr} {s t : State} (h : exec i s = .next t) : t.cfg = s.cfg := by
  obtain ⟨u, hran, hends⟩ := exec_ends i s
  exact (hends.cfg_eq h).trans hran.edges.cfg

/-- Accepting a command word keeps the parameters, whether the word is a command or illegal. -/
theorem accept_keeps_cfg {w : Word} {s t : State} (h : accept w s = .next t) : t.cfg = s.cfg := by
  obtain ⟨i, -, e⟩ | ⟨r, -, e⟩ := accept_cases w s
  · have hcfg := exec_keeps_cfg (e.symm.trans h)
    exact hcfg
  · cases e.symm.trans h; rfl

/-- A host write keeps the parameters. -/
theorem hostWrite_keeps_cfg {addr width : Nat} {data : Word} {s t : State} (h : hostWrite addr width data s = .next t) :
    t.cfg = s.cfg := by
  obtain ⟨-, -, e⟩ | e := hostWrite_cases addr width data s
  · exact accept_keeps_cfg (e.symm.trans h)
  · cases e.symm.trans h; rfl

/-- A host read keeps the parameters. -/
theorem hostRead_keeps_cfg (addr width : Nat) (s : State) : (hostRead addr width s).cfg = s.cfg := by
  obtain e | ⟨v, e⟩ := hostRead_cases addr width s <;> rw [e]

/-- Serving an input keeps the parameters. -/
theorem serve_keeps_cfg {s t : State} (h : serve s = .next t) : t.cfg = s.cfg := by
  obtain ⟨-, -, e⟩ | ⟨-, -, e⟩ | ⟨addr, width, data, rest, -, e⟩ | ⟨addr, width, rest, -, e⟩ | ⟨ack, bs, rest, -, -, e⟩ |
    ⟨ack, bs, rest, i, p, -, -, e⟩ | ⟨rest, -, e⟩ := serve_cases s <;> rw [e] at h
  · cases h; rfl
  · cases h
  · have hcfg := hostWrite_keeps_cfg h
    exact hcfg
  · cases h; exact hostRead_keeps_cfg addr width _
  · cases h; rfl
  · exact exec_keeps_cfg h
  · cases h; rfl

/-- Settles O55: a step serves one input, and whatever the input is the parameters are kept. -/
theorem parametersNeverChange : Obligations.ParametersNeverChange :=
  fun _ _ h => serve_keeps_cfg h

/-! ### READ's burst under OVF_MODEL -/

/-- READ at its burst, with the eight bytes next: it goes on to the compensation (R86). -/
theorem exec_read_burst {s : State} {ack : Bool} {d : List Byte} {rest : List Input} (hpos : s.pos = .burst)
    (hin : s.inputs = .sensor ack d :: rest) (hlen : d.length = 8) :
    exec .read s = compensate d (record (.read 0xF7 8 d none) { s with inputs := rest }) := by
  have hexec : exec .read s = readBurst s := by simp [exec, execRead, hpos]
  rw [hexec, readBurst, memRead_answered .read .burst 0xF7 8 compensate s hin hlen]

/-- With OVF_MODEL = fault and an intermediate outside its width, the compensation stops (R98). -/
theorem compensate_overflow {d : List Byte} {s : State} (hovf : s.cfg.ovf = .fault)
    (hno : noOverflow s.cal (adcT d).toInt (adcP d).toInt (adcH d).toInt = false) :
    compensate d s = .fault .intermediateOverflow :=
  if_pos ⟨hovf, hno⟩

/-- The state READ finishes in when it commits the reading of the burst `d` (R86), everything computed from the new
t_fine (R87). -/
def readingCommitted (d : List Byte) (s : State) : State :=
  let f := fineTemp s.cal (adcT d)
  let hum := compH s.cal (adcH d) f
  let press := compP s.cal (adcP d) f
  finish .ok (tempOut f) hum press { s with tFine := f, tout := tempOut f, hout := hum, pout := press }

/-- Where the compensation does not stop, it commits the reading. -/
theorem compensate_commits {d : List Byte} {s : State}
    (hgo : ¬ (s.cfg.ovf = .fault ∧ noOverflow s.cal (adcT d).toInt (adcP d).toInt (adcH d).toInt = false)) :
    compensate d s = .next (readingCommitted d s) :=
  if_neg hgo

/-- Settles O31: the burst is answered, so READ is the compensation, which tests NoOverflow and then stops or commits. -/
theorem faultModelStopsExactlyOnOverflow : Obligations.FaultModelStopsExactlyOnOverflow := by
  intro s ack d rest hpos hovf hlen hin
  rw [exec_read_burst hpos hin hlen]
  constructor
  · intro hno
    exact compensate_overflow hovf hno
  · intro hyes
    exact ⟨_, compensate_commits (fun h => absurd (hyes.symm.trans h.2) (by decide)), rfl, rfl⟩

end Sys2Proof.Machine
end

section
/-! What one step of the machine can do (10_state R16-R25, 70_reset R126), said once, and from it: the invariant of the
CE's state, and which steps write which registers. -/

namespace Sys2Proof.Machine

/-! ### What a step can do -/

/-- `s'` is the state in which a step from `s` runs the command `i`: the host has just written its word to CMD of an IDLE
engine (R17), or the sensor port has answered and the command in flight goes on (R16). -/
inductive Runs (s : State) (i : Instr) : State → Prop where
  | started (addr width : Nat) (w : Word) (rest : List Input) (hseq : s.seq = .idle)
      (hin : s.inputs = .hostWrite addr width w :: rest) (hdec : decode w = .command i) :
      Runs s i { s with inputs := rest, cmd := w, seq := .busy i .start }
  | resumed (p : Pos) (ack : Bool) (bs : List Byte) (rest : List Input) (hseq : s.seq = .busy i p)
      (hin : s.inputs = .sensor ack bs :: rest) : Runs s i s

/-- From `s` to `t` no command ran: the next input, if any, was taken, and at most a host read was answered. -/
structure Quiet (s t : State) : Prop where
  engine  : EngineKept s t
  results : ResultsKept s t
  cmd     : t.cmd = s.cmd
  cfg     : t.cfg = s.cfg
  seq     : t.seq = s.seq
  inputs  : t.inputs = s.inputs.tail

/-- All that a step from `s` to `t` can have done. -/
inductive StepTo (s t : State) : Prop where
  /-- It took the power-on reset (R126). -/
  | powerOn (rest : List Input) (hin : s.inputs = .powerOn :: rest) (ht : t = Machine.powerOn { s with inputs := rest })
  /-- It ran no command. -/
  | quiet (hq : Quiet s t)
  /-- It raised ILLEGAL for a word that encodes no command (R66, R110). -/
  | illegal (w : Word) (hne : s.inputs ≠ []) (ht : t = raise .illegal { s with inputs := s.inputs.tail, cmd := w })
  /-- It ran a command. -/
  | command (i : Instr) (s' : State) (hruns : Runs s i s') (hrunning : running s = some i) (hexec : exec i s' = .next t)

theorem EngineKept.refl (s : State) : EngineKept s s := ⟨rfl, rfl, rfl, rfl, rfl, rfl⟩

theorem EngineKept.trans {s t u : State} (h : EngineKept s t) (h' : EngineKept t u) : EngineKept s u :=
  ⟨h'.cal.trans h.cal, h'.tFine.trans h.tFine, h'.tout.trans h.tout, h'.hout.trans h.hout, h'.pout.trans h.pout,
    h'.smode.trans h.smode⟩

theorem ResultsKept.trans {s t u : State} (h : ResultsKept s t) (h' : ResultsKept t u) : ResultsKept s u :=
  ⟨h'.code.trans h.code, h'.res0.trans h.res0, h'.res1.trans h.res1, h'.res2.trans h.res2⟩

/-- Taking the next input alone is quiet. -/
theorem Quiet.take (s : State) : Quiet s { s with inputs := s.inputs.tail } :=
  ⟨⟨rfl, rfl, rfl, rfl, rfl, rfl⟩, ⟨rfl, rfl, rfl, rfl⟩, rfl, rfl, rfl, rfl⟩

/-- Taking the next input and answering it as a host read is quiet (R21, R124). -/
theorem Quiet.hostRead (addr width : Nat) (s : State) :
    Quiet s (Machine.hostRead addr width { s with inputs := s.inputs.tail }) := by
  obtain e | ⟨v, e⟩ := hostRead_cases addr width { s with inputs := s.inputs.tail } <;> rw [e]
  · exact Quiet.take s
  · exact ⟨⟨rfl, rfl, rfl, rfl, rfl, rfl⟩, ⟨rfl, rfl, rfl, rfl⟩, rfl, rfl, rfl, rfl⟩

/-- The step on a host write runs the command of an accepted word, raises ILLEGAL, or does nothing (R17, R23, R66). -/
theorem stepTo_of_hostWrite {s t : State} {addr width : Nat} {w : Word} {rest : List Input}
    (hin : s.inputs = .hostWrite addr width w :: rest) (h : hostWrite addr width w { s with inputs := rest } = .next t) :
    StepTo s t := by
  have htail : s.inputs.tail = rest := by rw [hin]; rfl
  obtain ⟨hidle, ⟨off, hoff, hacc, rfl⟩, e⟩ | e :=
    hostWrite_cases addr width w { s with inputs := rest } <;> rw [e] at h
  · obtain ⟨i, hdec, e⟩ | ⟨r, -, e⟩ := accept_cases w { s with inputs := rest } <;> rw [e] at h
    · have hrunning : running s = some i := by
        have hidle' : s.seq = .idle := hidle
        have hoff' : hostOffset s.cfg addr = some 0 := hoff
        simp [running, hidle', hin, hoff', hdec, hacc]
      exact .command i _ (.started addr width w rest hidle hin hdec) hrunning h
    · cases h
      exact .illegal w (by simp [hin]) (by rw [htail])
  · cases h
    exact .quiet (by rw [← htail]; exact Quiet.take s)

/-- Every step does one of the things of `StepTo`. -/
theorem step_stepTo {s t : State} (h : step s = .next t) : StepTo s t := by
  unfold step at h
  obtain ⟨hin, -, e⟩ | ⟨-, -, e⟩ | ⟨addr, width, w, rest, hin, e⟩ | ⟨addr, width, rest, hin, e⟩ |
    ⟨ack, bs, rest, hin, -, e⟩ | ⟨ack, bs, rest, i, p, hin, hseq, e⟩ | ⟨rest, hin, e⟩ := serve_cases s <;> rw [e] at h
  · cases h
    exact .quiet ⟨.refl s, ⟨rfl, rfl, rfl, rfl⟩, rfl, rfl, rfl, by rw [hin]; rfl⟩
  · cases h
  · exact stepTo_of_hostWrite hin h
  · cases h
    have hq := Quiet.hostRead addr width s
    rw [hin] at hq
    exact .quiet hq
  · cases h
    have hq := Quiet.take s
    rw [hin] at hq
    exact .quiet hq
  · exact .command i s (.resumed p ack bs rest hseq hin) (by simp [running, hseq, hin]) h
  · cases h
    exact .powerOn rest hin rfl

/-! ### The state in which a step runs a command -/

theorem Runs.engine {s s' : State} {i : Instr} (h : Runs s i s') : EngineKept s s' := by
  cases h with
  | started => exact ⟨rfl, rfl, rfl, rfl, rfl, rfl⟩
  | resumed => exact .refl s

theorem Runs.results {s s' : State} {i : Instr} (h : Runs s i s') : ResultsKept s s' := by
  cases h <;> exact ⟨rfl, rfl, rfl, rfl⟩

/-- With the invariant, the command that runs is the one CMD encodes (R17, R24), at its first transaction or at a position
of its rule. -/
theorem Runs.inFlight {s s' : State} {i : Instr} (hinv : Inv s) (h : Runs s i s') :
    decode s'.cmd = .command i ∧ (s'.pos = .start ∨ inSequence s' i s'.pos = true) := by
  cases h with
  | started _ _ _ _ _ _ hdec => exact ⟨hdec, .inl rfl⟩
  | resumed p _ _ _ hseq _ =>
    have hf := hinv.flight
    simp only [flightOk, hseq, Bool.and_eq_true, beq_iff_eq] at hf
    exact ⟨hf.1, .inr (by simpa [State.pos, hseq] using hf.2)⟩

/-! ### Every step keeps the invariant -/

/-- Sign extension from 12 bits gives a sext12 value (R11). -/
theorem isSext12_signExtend (v : BitVec 12) : isSext12 (v.signExtend 16) = true := by
  have h : (v.signExtend 16).setWidth 12 = v := by
    ext k hk
    have hk' : k < 16 := by omega
    simp [BitVec.getElem_signExtend, hk, hk']
  simp [isSext12, h]

/-- Which positions a command's rule has depends on SMODE and the parameters only (R88, R89). -/
theorem inSequence_congr {s t : State} (hsmode : t.smode = s.smode) (hcfg : t.cfg = s.cfg) (i : Instr) (p : Pos) :
    inSequence t i p = inSequence s i p := by
  unfold inSequence
  rw [hsmode, hcfg]

/-- An IDLE engine has nothing in flight. -/
theorem flightOk_of_idle {t : State} (h : t.seq = .idle) : flightOk t = true := by
  simp [flightOk, h]

/-- However the run of a command ends, the registers the invariant speaks of stay as it says (R11, R96). -/
theorem Ends.keeps_registers {i : Instr} {ok : Pos → Prop} {u t : State} (h : Ends i ok u (.next t))
    (h4 : isSext12 u.cal.h4 = true) (h5 : isSext12 u.cal.h5 = true) (hum : u.hout.toNat ≤ 10000) :
    isSext12 t.cal.h4 = true ∧ isSext12 t.cal.h5 = true ∧ t.hout.toNat ≤ 10000 := by
  cases h with
  | load c h1 e => exact ⟨isSext12_signExtend _, isSext12_signExtend _, hum⟩
  | reading f tt hh p _ hle => exact ⟨h4, h5, hle⟩
  | _ => exact ⟨h4, h5, hum⟩

/-- What is in flight after the run of the command CMD encodes is that command at a position it may wait at. -/
theorem Ends.keeps_flight {i : Instr} {ok : Pos → Prop} {u t : State} (h : Ends i ok u (.next t))
    (hdec : decode u.cmd = .command i) (hok : ∀ p, ok p → inSequence u i p = true) : flightOk t = true := by
  cases h with
  | wait p hp =>
    have hpos : inSequence (waitAt i p u) i p = true := hok p hp
    simp [flightOk, hdec, hpos]
  | _ => exact flightOk_of_idle rfl

/-- Running the command CMD encodes, from a position of its rule, keeps the invariant's registers and flight. -/
theorem exec_keeps_inv {i : Instr} {s t : State} (h4 : isSext12 s.cal.h4 = true) (h5 : isSext12 s.cal.h5 = true)
    (hum : s.hout.toNat ≤ 10000) (hdec : decode s.cmd = .command i)
    (hpos : s.pos = .start ∨ inSequence s i s.pos = true) (h : exec i s = .next t) : Inv t := by
  obtain ⟨u, hran, hends⟩ := exec_ends i s
  rw [h] at hends
  obtain ⟨h4', h5', hum'⟩ :=
    hends.keeps_registers (by rwa [hran.engine.cal]) (by rwa [hran.engine.cal]) (by rwa [hran.engine.hout])
  refine ⟨h4', h5', hum', hends.keeps_flight (by rwa [hran.edges.cmd]) (fun p hp => ?_)⟩
  rw [inSequence_congr hran.engine.smode hran.edges.cfg]
  exact hp hpos

/-- Settles O41: every register the invariant speaks of is 0, and the sequencer is IDLE. -/
theorem invariantHoldsAtReset : Obligations.InvariantHoldsAtReset :=
  ⟨rfl, rfl, Nat.zero_le _, rfl⟩

/-- The invariant speaks of CE state only, so the power-on reset restores it whatever the edges hold. -/
theorem inv_powerOn (s : State) : Inv (powerOn s) :=
  ⟨invariantHoldsAtReset.h4, invariantHoldsAtReset.h5, invariantHoldsAtReset.hum, flightOk_of_idle rfl⟩

theorem Quiet.keeps_inv {s t : State} (hinv : Inv s) (h : Quiet s t) : Inv t := by
  refine ⟨by rw [h.engine.cal]; exact hinv.h4, by rw [h.engine.cal]; exact hinv.h5,
    by rw [h.engine.hout]; exact hinv.hum, ?_⟩
  have hf := hinv.flight
  simpa only [flightOk, h.seq, h.cmd, inSequence_congr h.engine.smode h.cfg] using hf

/-- Settles O42: a step that runs a command keeps the invariant by what a command's run can do; every other step leaves the
registers and what is in flight, or ends IDLE. -/
theorem stepKeepsInvariant : Obligations.StepKeepsInvariant := by
  intro s t hinv h
  cases step_stepTo h with
  | powerOn rest _ ht => rw [ht]; exact inv_powerOn _
  | quiet hq => exact hq.keeps_inv hinv
  | illegal w _ ht => rw [ht]; exact ⟨hinv.h4, hinv.h5, hinv.hum, flightOk_of_idle rfl⟩
  | command i s' hruns _ hexec =>
    obtain ⟨hdec, hpos⟩ := hruns.inFlight hinv
    have hk := hruns.engine
    exact exec_keeps_inv (by rw [hk.cal]; exact hinv.h4) (by rw [hk.cal]; exact hinv.h5) (by rw [hk.hout]; exact hinv.hum)
      hdec hpos hexec

/-! ### Which steps write which registers -/

/-- A step that changes an engine register took the power-on reset or ran a command, which committed the change at its
end. -/
theorem step_engine {s t : State} (h : step s = .next t) :
    (∃ rest, s.inputs = .powerOn :: rest) ∨ EngineKept s t ∨
      ∃ (i : Instr) (ok : Pos → Prop) (u : State), running s = some i ∧ EngineKept s u ∧ Ends i ok u (.next t) := by
  cases step_stepTo h with
  | powerOn rest hin _ => exact .inl ⟨rest, hin⟩
  | quiet hq => exact .inr (.inl hq.engine)
  | illegal w _ ht => rw [ht]; exact .inr (.inl ⟨rfl, rfl, rfl, rfl, rfl, rfl⟩)
  | command i s' hruns hrunning hexec =>
    obtain ⟨u, hran, hends⟩ := exec_ends i s'
    rw [hexec] at hends
    exact .inr (.inr ⟨i, _, u, hrunning, hruns.engine.trans hran.engine, hends⟩)

/-- A run that changes CAL is a calibration load that succeeded (R12, R70). -/
theorem Ends.of_cal_ne {i : Instr} {ok : Pos → Prop} {u t : State} (h : Ends i ok u (.next t)) (hne : t.cal ≠ u.cal) :
    (i = .begin ∨ i = .reset) ∧ t.seq = .idle ∧ t.code = .ok ∧ t.res0 = 1 := by
  cases h with
  | load c h1 e hi => exact ⟨hi, rfl, rfl, rfl⟩
  | _ => exact absurd rfl hne

/-- A run that changes SMODE is a MODE.SET that succeeded (R15, R79). -/
theorem Ends.of_smode_ne {i : Instr} {ok : Pos → Prop} {u t : State} (h : Ends i ok u (.next t))
    (hne : t.smode ≠ u.smode) : ∃ a, i = .modeSet a ∧ t.seq = .idle ∧ t.code = .ok ∧ t.smode = BitVec.ofNat 2 a := by
  cases h with
  | mode a r hi => exact ⟨a, hi, rfl, rfl, rfl⟩
  | _ => exact absurd rfl hne

/-- A run that changes a reading is a READ that succeeded, and returns the readings (R13, R14, R86). -/
theorem Ends.of_readings_ne {i : Instr} {ok : Pos → Prop} {u t : State} (h : Ends i ok u (.next t))
    (hne : t.tFine ≠ u.tFine ∨ t.tout ≠ u.tout ∨ t.hout ≠ u.hout ∨ t.pout ≠ u.pout) :
    i = .read ∧ t.seq = .idle ∧ t.code = .ok ∧ t.res0 = t.tout ∧ t.res1 = t.hout ∧ t.res2 = t.pout := by
  cases h with
  | reading f tt hum p hi => exact ⟨hi, rfl, rfl, rfl, rfl, rfl⟩
  | _ => simp at hne

/-- A run that leaves its command in flight has committed nothing (R25, R61). -/
theorem Ends.of_busy {i : Instr} {ok : Pos → Prop} {u t : State} (h : Ends i ok u (.next t)) (hbusy : t.seq ≠ .idle) :
    EngineKept u t ∧ ResultsKept u t := by
  cases h with
  | wait p => exact ⟨⟨rfl, rfl, rfl, rfl, rfl, rfl⟩, ⟨rfl, rfl, rfl, rfl⟩⟩
  | _ => exact absurd rfl hbusy

/-- Settles O43: of all that a step can end with, only the calibration load writes CAL. -/
theorem onlyCalibrationLoadWritesCal : Obligations.OnlyCalibrationLoadWritesCal := by
  intro s t h hne
  obtain hpow | hkept | ⟨i, ok, u, hrunning, hkept, hends⟩ := step_engine h
  · exact .inl hpow
  · exact absurd hkept.cal hne
  · obtain ⟨hi, hfin⟩ := hends.of_cal_ne (by rwa [hkept.cal])
    exact .inr ⟨by rw [hrunning]; simpa using hi, hfin⟩

/-- Settles O44: of all that a step can end with, only MODE.SET's finish writes SMODE. -/
theorem onlyModeSetWritesSmode : Obligations.OnlyModeSetWritesSmode := by
  intro s t h hne
  obtain hpow | hkept | ⟨i, ok, u, hrunning, hkept, hends⟩ := step_engine h
  · exact .inl hpow
  · exact absurd hkept.smode hne
  · obtain ⟨a, rfl, hfin⟩ := hends.of_smode_ne (by rwa [hkept.smode])
    exact .inr ⟨a, hrunning, hfin⟩

/-- Settles O45: of all that a step can end with, only READ's finish writes the readings. -/
theorem onlyReadWritesReadings : Obligations.OnlyReadWritesReadings := by
  intro s t h hne
  obtain hpow | hkept | ⟨i, ok, u, hrunning, hkept, hends⟩ := step_engine h
  · exact .inl hpow
  · simp [hkept.tFine, hkept.tout, hkept.hout, hkept.pout] at hne
  · obtain ⟨rfl, hfin⟩ := hends.of_readings_ne (by rwa [hkept.tFine, hkept.tout, hkept.hout, hkept.pout])
    exact .inr ⟨hrunning, hfin⟩

/-- Settles O47: a step that ends BUSY was quiet or ran a command that now waits. -/
theorem nothingCommitsWhileBusy : Obligations.NothingCommitsWhileBusy := by
  intro s t h hbusy
  cases step_stepTo h with
  | powerOn rest _ ht => exact absurd (by rw [ht]; rfl) hbusy
  | quiet hq => exact ⟨hq.engine, hq.results⟩
  | illegal w _ ht => exact absurd (by rw [ht]; rfl) hbusy
  | command i s' hruns _ hexec =>
    obtain ⟨u, hran, hends⟩ := exec_ends i s'
    rw [hexec] at hends
    obtain ⟨hengine, hresults⟩ := hends.of_busy hbusy
    exact ⟨(hruns.engine.trans hran.engine).trans hengine, (hruns.results.trans hran.results).trans hresults⟩

end Sys2Proof.Machine
end

section
/-! The host port (10_state R16-R24, 20_memory R43, R44): what a host write starts, what it leaves unchanged, and what a host
read returns. -/

namespace Sys2Proof.Machine

/-- Settles O1: the reset state is written out field by field (R41). -/
theorem powerOnResetValues : Obligations.PowerOnResetValues := by
  unfold Obligations.PowerOnResetValues
  decide

/-- An address of the host register space selects its offset (R43, R54). -/
theorem hostOffset_add {off : Nat} (cfg : Config) (h : off < 256) : hostOffset cfg (cfg.hostBase + off) = some off := by
  simp [hostOffset, h]

/-! ### Host writes -/

/-- The step on a host write is what the host port does with it. -/
theorem step_hostWrite {s : State} {addr width : Nat} {w : Word} {rest : List Input}
    (hin : s.inputs = .hostWrite addr width w :: rest) : step s = hostWrite addr width w { s with inputs := rest } := by
  simp [step, serve, hin]

/-- A write while BUSY does nothing (R24). -/
theorem hostWrite_busy {s : State} {i : Instr} {p : Pos} (addr width : Nat) (w : Word) (hseq : s.seq = .busy i p) :
    hostWrite addr width w s = .next s := by
  obtain ⟨hidle, -⟩ | e := hostWrite_cases addr width w s
  · rw [hseq] at hidle
    cases hidle
  · exact e

/-- An aligned word write of CMD of an IDLE engine is accepted (R17). -/
theorem hostWrite_cmd {s : State} (w : Word) (hseq : s.seq = .idle) : hostWrite s.cfg.hostBase 32 w s = accept w s := by
  have hoff : hostOffset s.cfg s.cfg.hostBase = some 0 := by
    simpa using hostOffset_add (off := 0) s.cfg (by decide)
  simp [hostWrite, hoff, hseq, wordAccess]

/-- Settles O8: the write is accepted and its word starts the command it encodes. -/
theorem stepRunsDecodedCommand : Obligations.StepRunsDecodedCommand := by
  intro s w i rest hseq hin hdec
  have hacc : hostWrite s.cfg.hostBase 32 w { s with inputs := rest } = accept w { s with inputs := rest } :=
    hostWrite_cmd w hseq
  rw [step_hostWrite hin, hacc]
  simp [accept, hdec]

/-- Settles O9: a BUSY engine serves the sensor port's answer by running its command. -/
theorem stepResumesCommandInFlight : Obligations.StepResumesCommandInFlight := by
  intro s i p ack bs rest hseq hin
  simp [step, serve, hin, hseq]

/-- Settles O11: a BUSY engine drops the write. -/
theorem hostWriteDroppedWhileBusy : Obligations.HostWriteDroppedWhileBusy := by
  intro s i p addr width w rest hseq hin
  rw [step_hostWrite hin]
  exact hostWrite_busy addr width w hseq

/-- Settles O12: an accepted write is one of 32 bits to offset 0 of an IDLE engine, and every other does nothing. -/
theorem hostWriteElsewhereDoesNothing : Obligations.HostWriteElsewhereDoesNothing := by
  intro s off width w rest hoff hne hin
  rw [step_hostWrite hin]
  obtain ⟨hidle, ⟨off', hoff', hacc, rfl⟩, -⟩ | e :=
    hostWrite_cases (s.cfg.hostBase + off) width w { s with inputs := rest }
  · have hzero : off = 0 := by simpa using (hostOffset_add s.cfg hoff).symm.trans hoff'
    have hwidth : width = 32 := by
      simp only [wordAccess, Bool.and_eq_true, beq_iff_eq] at hacc
      exact hacc.1
    have hidle' : s.seq = .idle := hidle
    simp [hzero, hwidth, hidle'] at hne
  · exact e

/-! ### Host reads -/

/-- A host read of the register space is answered with the value of its offset, and nothing else happens (R21, R124). -/
theorem readsAs_of_hostReadValue {s : State} {off width : Nat} {v : Word} (hoff : off < 256)
    (hv : hostReadValue s off width = v) : readsAs s off width v := by
  intro rest
  have hval : hostReadValue { s with inputs := rest } off width = v := hv
  simp [step, serve, hostRead, hostOffset_add s.cfg hoff, hval]

/-- CALi beyond the 18 coefficients reads 0 (R21). -/
theorem calWord_of_le {n : Nat} (c : Cal) (h : 18 ≤ n) : calWord c n = 0 := by
  unfold calWord
  split
  case h_19 => rfl
  all_goals omega

/-- The gap below CAL0 and everything above CAL17 read 0 (R21). -/
theorem hostReg_unlisted {off : Nat} (s : State) (h : (0x28 ≤ off ∧ off < 0x40) ∨ 0x88 ≤ off) :
    hostReg s off = 0 := by
  have hcal : 0x40 ≤ off → 18 ≤ (off - 0x40) / 4 := by omega
  unfold hostReg
  split
  case h_11 =>
    split
    · rename_i hoff
      exact calWord_of_le s.cal (hcal hoff.2)
    · rfl
  all_goals omega

/-- Settles O14: an access that is no aligned word access reads 0, and so does every offset the map does not list. -/
theorem otherHostReadsReturnZero : Obligations.OtherHostReadsReturnZero := by
  intro s off width hoff h
  apply readsAs_of_hostReadValue hoff
  unfold hostReadValue
  split
  · rename_i hacc
    simp only [wordAccess, Bool.and_eq_true, beq_iff_eq] at hacc
    exact hostReg_unlisted s (by omega)
  · rfl

/-- STATUS as a number: CODE in bits 3:1, BUSY in bit 0 (R18, R19). -/
theorem statusWord_eq (s : State) : statusWord s = BitVec.ofNat 32
    (2 * (match s.code with | .ok => 0 | .failNodev => 1 | .failInvalid => 2 | .illegal => 3 | .timeout => 4)
      + if s.seq = .idle then 0 else 1) := by
  unfold statusWord State.busy
  cases s.seq <;> cases s.code <;> simp <;> rfl

/-- Settles O13: each listed offset is an aligned word, and the map gives its register (R21, R22). -/
theorem hostReadsFollowTheMap : Obligations.HostReadsFollowTheMap := by
  intro s
  refine ⟨readsAs_of_hostReadValue (by decide) rfl, readsAs_of_hostReadValue (by decide) (statusWord_eq s), ?_⟩
  and_intros <;> exact readsAs_of_hostReadValue (by decide) rfl

end Sys2Proof.Machine
end

section
/-! A command one sensor-port transaction at a time (20_memory R47, R56): from every position `exec` is one `transact`, after
which the run either goes on from the next position of the command's rule, as if it had waited there, or ends. From it: the
answer completes the outstanding transaction, each step takes an input, and running over some answers and going on later is
running over all at once. -/

namespace Sys2Proof.Machine

/-! ### What follows a transaction -/

/-- What a run of `i` does by `k` from `u`, whatever the inputs to come. -/
inductive Proceeds (i : Instr) (u : State) (k : State → Result) : Prop where
  /-- It goes on from one position of the rule, as if the command had waited there. -/
  | on (p : Pos) (h : ∀ rest, k { u with inputs := rest } = exec i (waitAt i p { u with inputs := rest }))
  /-- Where it answers a state, the command has finished there, with one more event and no input taken. -/
  | done (h : ∀ rest t, k { u with inputs := rest } = .next t →
      t.seq = .idle ∧ (∃ e, t.history = u.history ++ [e]) ∧ t.inputs = rest)

/-- With SMODE `m`, the run of `i` from position `q` is the transaction `r` at position `p`, then `k`. -/
structure Transacts (i : Instr) (m : BitVec 2) (q p : Pos) (r : Request) (fits : List Byte → Bool)
    (event : Bool → List Byte → Event) (k : Bool → List Byte → State → Result) : Prop where
  first     : ∀ s, s.smode = m → s.pos = q → exec i s = transact i p fits event k s
  again     : ∀ s, s.smode = m → exec i (waitAt i p s) = transact i p fits event k s
  accepts   : ∀ bs, (∀ a n, r = .read a n → bs.length = n) → fits bs = true
  completes : ∀ ack bs, fits bs = true → (event ack bs).completes r = true
  proceeds  : ∀ ack bs u, u.smode = m → Proceeds i u (k ack bs)

/-- With SMODE `m`, the run of `i` from position `q` begins with the transaction that the command shows as issued, at `q`
itself where `q` is a position of the command's rule. -/
def Performs (i : Instr) (m : BitVec 2) (q : Pos) : Prop :=
  ∃ p r fits event k, Transacts i m q p r fits event k ∧ requestAt m i p = some r ∧
    ∀ s, s.smode = m → inSequence s i q = true → p = q

/-- A finish ends the command, with one event. -/
theorem Proceeds.of_finish {i : Instr} {u : State} {k : State → Result}
    (h : ∀ rest, ∃ c r0 r1 r2 v, k { u with inputs := rest } = .next (finish c r0 r1 r2 v) ∧ v.history = u.history ∧
      v.inputs = rest) : Proceeds i u k := by
  refine .done (fun rest t ht => ?_)
  obtain ⟨c, r0, r1, r2, v, e, hhist, hins⟩ := h rest
  cases e.symm.trans ht
  exact ⟨rfl, ⟨_, by rw [finish_history, hhist]⟩, hins⟩

section
variable {i : Instr} {m : BitVec 2} {q p : Pos} {a : Byte}

/-- A run that begins with a read. -/
theorem performs_memRead {n : Nat} {k : List Byte → State → Result}
    (first : ∀ s, s.smode = m → s.pos = q → exec i s = memRead i p a n k s)
    (again : ∀ s, s.smode = m → exec i (waitAt i p s) = memRead i p a n k s)
    (proceeds : ∀ bs u, u.smode = m → Proceeds i u (k bs)) (hreq : requestAt m i p = some (.read a n))
    (hin : ∀ s, s.smode = m → inSequence s i q = true → p = q) : Performs i m q :=
  ⟨p, .read a n, fun bs => bs.length == n, fun _ bs => .read a n bs none, fun _ bs t => k bs t,
    { first := first
      again := again
      accepts := fun bs h => by simpa using h a n rfl
      completes := fun _ bs h => by simpa [Event.completes] using h
      proceeds := fun _ => proceeds }, hreq, hin⟩

/-- A run that begins with a read whose status is consulted. -/
theorem performs_memReadAck {n : Nat} {k : Bool → List Byte → State → Result}
    (first : ∀ s, s.smode = m → s.pos = q → exec i s = memReadAck i p a n k s)
    (again : ∀ s, s.smode = m → exec i (waitAt i p s) = memReadAck i p a n k s)
    (proceeds : ∀ ack bs u, u.smode = m → Proceeds i u (k ack bs)) (hreq : requestAt m i p = some (.read a n))
    (hin : ∀ s, s.smode = m → inSequence s i q = true → p = q) : Performs i m q :=
  ⟨p, .read a n, fun bs => bs.length == n, fun ack bs => .read a n bs (some ack), k,
    { first := first
      again := again
      accepts := fun bs h => by simpa using h a n rfl
      completes := fun _ bs h => by simpa [Event.completes] using h
      proceeds := proceeds }, hreq, hin⟩

/-- A run that begins with a write. -/
theorem performs_memWrite {v : Byte} {k : State → Result}
    (first : ∀ s, s.smode = m → s.pos = q → exec i s = memWrite i p a v k s)
    (again : ∀ s, s.smode = m → exec i (waitAt i p s) = memWrite i p a v k s)
    (proceeds : ∀ u, u.smode = m → Proceeds i u k) (hreq : requestAt m i p = some (.write a v))
    (hin : ∀ s, s.smode = m → inSequence s i q = true → p = q) : Performs i m q :=
  ⟨p, .write a v, fun _ => true, fun _ _ => .write a v, fun _ _ t => k t,
    { first := first
      again := again
      accepts := fun _ _ => rfl
      completes := fun _ _ _ => by simp [Event.completes]
      proceeds := fun _ _ => proceeds }, hreq, hin⟩

end

/-! ### Waiting is no part of what a run does next -/

section
variable {i j : Instr} {p p' : Pos}

/-- A transaction is the same from a state in which a command waits, if what follows it is. -/
theorem transact_waitAt {fits : List Byte → Bool} {event : Bool → List Byte → Event}
    {k : Bool → List Byte → State → Result} {s : State} (hk : ∀ ack bs u, k ack bs (waitAt j p' u) = k ack bs u) :
    transact i p fits event k (waitAt j p' s) = transact i p fits event k s := by
  obtain ⟨ack, bs, rest, hin, hfit, e⟩ | ⟨ack, bs, rest, hin, hfit, e⟩ | ⟨hin, e⟩ :=
    transact_cases i p fits event k s
  · rw [e, transact_answered i p fits event k _ (rest := rest) (by simpa using hin) hfit]
    exact hk ack bs (record (event ack bs) { s with inputs := rest })
  · rw [e, transact_misfit i p fits event k _ (rest := rest) (by simpa using hin) hfit]
    rfl
  · rw [e, transact_waits i p fits event k _ (by simpa using hin)]
    rfl

theorem fieldPut_waitAt {q : Byte → Pos} {f : Field} {v old : Byte} {k : State → Result} {s : State}
    (hk : ∀ u, k (waitAt j p' u) = k u) : fieldPut i q f v old k (waitAt j p' s) = fieldPut i q f v old k s :=
  transact_waitAt (fun _ _ u => hk u)

theorem fieldSet_waitAt {q : Byte → Pos} {f : Field} {v : Byte} {k : State → Result} {s : State}
    (hk : ∀ u, k (waitAt j p' u) = k u) : fieldSet i p q f v k (waitAt j p' s) = fieldSet i p q f v k s :=
  transact_waitAt (fun _ _ _ => fieldPut_waitAt hk)

/-- READ's polls are the same from a state in which a command waits. -/
theorem readPoll_waitAt (n : Nat) (s : State) : readPoll n (waitAt j p' s) = readPoll n s := by
  have hpoll (fuel : Nat) : ∀ n (s : State), pollStatus fuel n (waitAt j p' s) = pollStatus fuel n s := by
    induction fuel with
    | zero => exact fun n s => by unfold pollStatus; exact transact_waitAt (fun _ _ _ => rfl)
    | succ fuel ih =>
      intro n s
      unfold pollStatus
      refine transact_waitAt (fun _ bs u => ?_)
      simp only [ih]
      rfl
  exact hpoll _ n s

end

/-! ### BEGIN and RESET -/

/-- A calibration load past the identity check goes on where it is (R70, R104). -/
theorem exec_of_resumeLoad {i : Instr} (hi : i = .begin ∨ i = .reset) {s : State} {x : Result}
    (h : resumeLoad i s = some x) : exec i s = x := by
  rcases hi with rfl | rfl
  · simp [exec, execBegin, h]
  · show execReset s = x
    unfold execReset
    split
    · rename_i hpos
      simp [resumeLoad, hpos] at h
    · simp [h]

section
variable {i : Instr} (hi : i = .begin ∨ i = .reset) (m : BitVec 2)
include hi

theorem calTP_performs : Performs i m .calTP :=
  performs_memRead (fun s _ hpos => exec_of_resumeLoad hi (x := loadTP i s) (by simp [resumeLoad, hpos]))
    (fun s _ => exec_of_resumeLoad hi (x := loadTP i s) rfl)
    (fun c u _ => .on (.calH1 c) (fun rest => (exec_of_resumeLoad hi (x := loadH1 i c { u with inputs := rest }) rfl).symm))
    rfl (fun _ _ _ => rfl)

theorem calH1_performs (c : List Byte) : Performs i m (.calH1 c) :=
  performs_memRead (fun s _ hpos => exec_of_resumeLoad hi (x := loadH1 i c s) (by simp [resumeLoad, hpos]))
    (fun s _ => exec_of_resumeLoad hi (x := loadH1 i c s) rfl)
    (fun h1 u _ => .on (.calH c h1)
      (fun rest => (exec_of_resumeLoad hi (x := loadH i c h1 { u with inputs := rest }) rfl).symm))
    rfl (fun _ _ _ => rfl)

theorem calH_performs (c h1 : List Byte) : Performs i m (.calH c h1) :=
  performs_memRead (fun s _ hpos => exec_of_resumeLoad hi (x := loadH i c h1 s) (by simp [resumeLoad, hpos]))
    (fun s _ => exec_of_resumeLoad hi (x := loadH i c h1 s) rfl)
    (fun _ _ _ => .of_finish (fun _ => ⟨_, _, _, _, _, rfl, rfl, rfl⟩)) rfl (fun _ _ _ => rfl)

/-- A run that is at the identity read: the end follows, or the calibration load (R70, R113). -/
theorem identify_performs {q p : Pos} (first : ∀ s, s.pos = q → exec i s = identify i p s)
    (again : ∀ s, exec i (waitAt i p s) = identify i p s) (hreq : requestAt m i p = some (.read 0xD0 1))
    (hin : ∀ s, inSequence s i q = true → p = q) : Performs i m q := by
  refine performs_memReadAck (fun s _ => first s) (fun s _ => again s) (fun ack id u _ => ?_) hreq (fun s _ => hin s)
  split
  · exact .of_finish (fun _ => ⟨_, _, _, _, _, rfl, rfl, rfl⟩)
  · exact .on .calTP (fun rest => (exec_of_resumeLoad hi (x := loadTP i { u with inputs := rest }) rfl).symm)

end

theorem begin_performs (m : BitVec 2) (q : Pos) : Performs .begin m q := by
  have hstart (hq : ∀ s, s.pos = q → resumeLoad .begin s = none)
      (hin : ∀ s, inSequence s .begin q = true → .start = q) : Performs .begin m q :=
    identify_performs (.inl rfl) m (p := .start) (fun s hpos => by simp [exec, execBegin, hq s hpos]) (fun _ => rfl) rfl hin
  cases q with
  | calTP => exact calTP_performs (.inl rfl) m
  | calH1 c => exact calH1_performs (.inl rfl) m c
  | calH c h1 => exact calH_performs (.inl rfl) m c h1
  | start => exact hstart (fun s hpos => by simp [resumeLoad, hpos]) (fun _ _ => rfl)
  | _ => exact hstart (fun s hpos => by simp [resumeLoad, hpos]) (fun _ h => by cases h)

/-- RESET from its write. -/
theorem resetWrite_performs {m : BitVec 2} {q : Pos}
    (hq : ∀ s, s.pos = q → exec .reset s =
      memWrite .reset .start 0xE0 softResetCode (fun t => identify .reset .identity t) s)
    (hin : ∀ s, inSequence s .reset q = true → .start = q) : Performs .reset m q :=
  performs_memWrite (fun s _ => hq s) (fun _ _ => rfl) (fun _ _ => .on .identity (fun _ => rfl)) rfl (fun s _ => hin s)

theorem reset_performs (m : BitVec 2) (q : Pos) : Performs .reset m q := by
  cases q with
  | identity =>
    exact identify_performs (.inr rfl) m (p := .identity) (fun s hpos => by simp [exec, execReset, hpos]) (fun _ => rfl) rfl
      (fun _ _ => rfl)
  | calTP => exact calTP_performs (.inr rfl) m
  | calH1 c => exact calH1_performs (.inr rfl) m c
  | calH c h1 => exact calH_performs (.inr rfl) m c h1
  | start => exact resetWrite_performs (fun s hpos => by simp [exec, execReset, resumeLoad, hpos]) (fun _ _ => rfl)
  | _ => exact resetWrite_performs (fun s hpos => by simp [exec, execReset, resumeLoad, hpos]) (fun _ h => by cases h)

/-! ### Getters and setters -/

/-- A command that is one field read and a finish. -/
theorem getter_performs {i : Instr} {m : BitVec 2} {f : Field} {g : Byte → Word} (q : Pos)
    (hexec : ∀ s, exec i s = fieldGet i .start f (fun v t => .next (finish .ok (g v) 0 0 t)) s)
    (hreq : firstRequest m i = some (.read f.reg 1)) (hin : ∀ s, inSequence s i q = true → .start = q) :
    Performs i m q :=
  performs_memRead (fun s _ _ => hexec s) (fun _ _ => (hexec _).trans rfl)
    (fun _ _ _ => .of_finish (fun _ => ⟨_, _, _, _, _, rfl, rfl, rfl⟩)) hreq (fun s _ => hin s)

/-- The field write of a setter, from the position of its write. -/
theorem setField_fieldWrite {i : Instr} {f : Field} {v old : Byte} {k : State → Result} {s : State}
    (hpos : s.pos = .fieldWrite old) : setField i f v k s = fieldPut i .fieldWrite f v old k s := by
  simp [setField, hpos]

/-- The field write of a setter, from any other position. -/
theorem setField_start {i : Instr} {f : Field} {v : Byte} {k : State → Result} {s : State}
    (hpos : ∀ old, s.pos ≠ .fieldWrite old) : setField i f v k s = fieldSet i .start .fieldWrite f v k s := by
  unfold setField
  split
  · exact absurd ‹_› (hpos _)
  · rfl

/-- A command that is a field write and an end. -/
theorem setter_performs {i : Instr} {m : BitVec 2} {f : Field} {v : Byte} {k : State → Result} (q : Pos)
    (hexec : ∀ s, exec i s = setField i f v k s) (hk : ∀ p u, k (waitAt i p u) = k u) (hend : ∀ u, Proceeds i u k)
    (hreq : firstRequest m i = some (.read f.reg 1)) (hset : setterWrite i = some (f, v))
    (hin : ∀ s, inSequence s i q = true → .start = q ∨ ∃ old, .fieldWrite old = q) : Performs i m q := by
  have hput (old : Byte) (s : State) : exec i (waitAt i (.fieldWrite old) s) = fieldPut i .fieldWrite f v old k s := by
    rw [hexec, setField_fieldWrite rfl, fieldPut_waitAt (hk _)]
  have hfieldSet (s : State) : exec i (waitAt i .start s) = fieldSet i .start .fieldWrite f v k s := by
    rw [hexec, setField_start (by simp), fieldSet_waitAt (hk _)]
  by_cases hq : ∃ old, .fieldWrite old = q
  · obtain ⟨old, rfl⟩ := hq
    exact performs_memWrite (fun s _ hpos => (hexec s).trans (setField_fieldWrite hpos)) (fun s _ => hput old s)
      (fun u _ => hend u) (by simp [requestAt, hset]) (fun _ _ _ => rfl)
  · exact performs_memRead
      (fun s _ hpos => (hexec s).trans (setField_start (fun old h => hq ⟨old, h.symm.trans hpos⟩)))
      (fun s _ => hfieldSet s) (fun bs _ _ => .on (.fieldWrite (byteAt bs 0)) (fun _ => (hput _ _).symm)) hreq
      (fun s _ h => (hin s h).resolve_right hq)

/-- OSR.SET validates its operands before its field write (R77, R80). -/
theorem osrSet_performs (a b : Nat) (m : BitVec 2) (q : Pos) : Performs (.osrSet a b) m q ∨
    ∀ s, exec (.osrSet a b) s = .next (raise .failInvalid s) ∧ inSequence s (.osrSet a b) q = false := by
  cases hf : sensorField a with
  | none => exact .inr (fun s => ⟨by simp [exec, execOsrSet, hf], by cases q <;> simp [inSequence, hf]⟩)
  | some f =>
    cases hb : levelValid b with
    | false => exact .inr (fun s => ⟨by simp [exec, execOsrSet, hf, hb], by cases q <;> simp [inSequence, hb]⟩)
    | true =>
      refine .inl (setter_performs (f := f) (v := BitVec.ofNat 8 b) (k := fun t => .next (finish .ok 1 0 0 t)) q ?_
        (fun _ _ => rfl) (fun _ => .of_finish (fun _ => ⟨_, _, _, _, _, rfl, rfl, rfl⟩)) ?_ ?_ ?_)
      · intro s
        simp [exec, execOsrSet, hf, hb]
      · simp [firstRequest, hf, hb]
      · simp [setterWrite, hf]
      · cases q <;> simp [inSequence]

/-- OSR.GET validates its sensor before its field read (R77, R81). -/
theorem osrGet_performs (a b : Nat) (m : BitVec 2) (q : Pos) : Performs (.osrGet a b) m q ∨
    ∀ s, exec (.osrGet a b) s = .next (raise .failInvalid s) ∧ inSequence s (.osrGet a b) q = false := by
  cases hf : sensorField a with
  | some f =>
    refine .inl (getter_performs (f := f)
      (g := fun v => if wantsMultiplier b then BitVec.ofNat 32 (osrMult (v.setWidth 3)) else v.setWidth 32) q ?_ ?_ ?_)
    · intro s
      simp [exec, execOsrGet, hf]
    · simp [firstRequest, hf]
    · cases q <;> simp [inSequence]
  | none =>
    refine .inr (fun s => ⟨by simp [exec, execOsrGet, hf], ?_⟩)
    cases q <;> simp [inSequence, hf]

/-! ### MTIME -/

/-- MTIME from its first read. -/
theorem mtimeStart_performs {a : Nat} {m : BitVec 2} {q : Pos} (hq : ∀ s, s.pos = q → exec (.mtime a) s =
      memRead (.mtime a) .start 0xF5 1 (fun bs t => mtimeMeasRead a (byteAt bs 0) t) s)
    (hin : ∀ s, inSequence s (.mtime a) q = true → .start = q) : Performs (.mtime a) m q :=
  performs_memRead (fun s _ => hq s) (fun _ _ => rfl) (fun bs _ _ => .on (.mtimeMeas (byteAt bs 0)) (fun _ => rfl)) rfl
    (fun s _ => hin s)

theorem mtime_performs (a : Nat) (m : BitVec 2) (q : Pos) : Performs (.mtime a) m q := by
  cases q with
  | mtimeMeas f5 =>
    have hfirst : ∀ s, s.smode = m → s.pos = .mtimeMeas f5 → exec (.mtime a) s = mtimeMeasRead a f5 s :=
      fun s _ hpos => by simp [exec, execMtime, hpos]
    exact performs_memRead hfirst (fun _ _ => rfl) (fun bs _ _ => .on (.mtimeHum f5 (byteAt bs 0)) (fun _ => rfl)) rfl
      (fun _ _ _ => rfl)
  | mtimeHum f5 f4 =>
    have hfirst : ∀ s, s.smode = m → s.pos = .mtimeHum f5 f4 → exec (.mtime a) s = mtimeHumRead a f5 f4 s :=
      fun s _ hpos => by simp [exec, execMtime, hpos]
    exact performs_memRead hfirst (fun _ _ => rfl)
      (fun _ _ _ => .of_finish (fun _ => ⟨_, _, _, _, _, rfl, rfl, rfl⟩)) rfl (fun _ _ _ => rfl)
  | start => exact mtimeStart_performs (fun s hpos => by simp [exec, execMtime, hpos]) (fun _ _ => rfl)
  | _ => exact mtimeStart_performs (fun s hpos => by simp [exec, execMtime, hpos]) (fun _ h => by cases h)

/-! ### READ -/

/-- One status poll of READ and what follows it, without the fuel (R86, R89). -/
theorem readPoll_eq (n : Nat) (s : State) : readPoll n s = memRead .read (.poll n) 0xF3 1 (fun bs t =>
    if byteAt bs 0 &&& busyMask = 0 then readBurst t
    else if pollsExhausted t.cfg (n + 1) then .next (raise .timeout t)
    else readPoll (n + 1) t) s := by
  have henough : pollStatus (s.inputs.length + 1) n s = readPoll n s :=
    pollStatus_fuel _ _ n s (Nat.le_succ _) (Nat.le_refl _)
  rw [← henough, pollStatus]
  apply transact_congr
  intro ack bs rest hin _
  have hmore (t : State) (ht : t.inputs = rest) : pollStatus s.inputs.length (n + 1) t = readPoll (n + 1) t :=
    pollStatus_fuel _ _ (n + 1) t (by rw [ht, hin]; exact Nat.le_succ _) (Nat.le_refl _)
  dsimp only
  rw [hmore _ rfl]

theorem exec_read_poll {n : Nat} {s : State} (hpos : s.pos = .poll n) : exec .read s = readPoll n s := by
  simp [exec, execRead, hpos]

theorem exec_read_poll_waitAt (n : Nat) (s : State) : exec .read (waitAt .read (.poll n) s) = readPoll n s :=
  (exec_read_poll rfl).trans (readPoll_waitAt n s)

/-- A run of READ that begins with a status poll, after `n` busy ones. -/
theorem poll_performs {m : BitVec 2} {q : Pos} {n : Nat}
    (hfirst : ∀ s, s.smode = m → s.pos = q → exec .read s = readPoll n s)
    (hin : ∀ s, s.smode = m → inSequence s .read q = true → .poll n = q) : Performs .read m q := by
  refine performs_memRead (fun s hm hpos => (hfirst s hm hpos).trans (readPoll_eq n s))
    (fun s _ => (exec_read_poll_waitAt n s).trans (readPoll_eq n s)) (fun bs u _ => ?_) rfl hin
  by_cases hclear : byteAt bs 0 &&& busyMask = 0
  · exact .on .burst (fun _ => if_pos hclear)
  · cases hx : pollsExhausted u.cfg (n + 1) with
    | true => exact .of_finish (fun _ => ⟨_, _, _, _, _, (if_neg hclear).trans (if_pos hx), rfl, rfl⟩)
    | false =>
      refine .on (.poll (n + 1)) (fun rest => (if_neg hclear).trans ((if_neg (by simp [hx])).trans ?_))
      exact (exec_read_poll_waitAt (n + 1) _).symm

/-- READ's re-trigger write, from its position (R88). -/
theorem exec_read_trigWrite {m : BitVec 2} {old : Byte} {s : State} (hm : s.smode = m) (hpos : s.pos = .trigWrite old) :
    exec .read s = fieldPut .read .trigWrite modeField (m.setWidth 8) old (readPoll 0) s := by
  simp [exec, execRead, hpos, hm]

theorem exec_read_trigWrite_waitAt {m : BitVec 2} {s : State} (old : Byte) (hm : s.smode = m) :
    exec .read (waitAt .read (.trigWrite old) s) = fieldPut .read .trigWrite modeField (m.setWidth 8) old (readPoll 0) s :=
  (exec_read_trigWrite (s := waitAt .read (.trigWrite old) s) hm rfl).trans (fieldPut_waitAt (readPoll_waitAt 0))

theorem trigWrite_performs (m : BitVec 2) (old : Byte) : Performs .read m (.trigWrite old) :=
  performs_memWrite (fun _ hm hpos => exec_read_trigWrite hm hpos) (fun _ hm => exec_read_trigWrite_waitAt old hm)
    (fun _ _ => .on (.poll 0) (fun _ => (exec_read_poll_waitAt 0 _).symm)) rfl (fun _ _ _ => rfl)

/-- READ's re-trigger, from the position of its read (R88). -/
theorem exec_read_trigRead {m : BitVec 2} {s : State} (hm : s.smode = m) (hpos : s.pos = .trigRead) :
    exec .read s = fieldSet .read .trigRead .trigWrite modeField (m.setWidth 8) (readPoll 0) s := by
  simp [exec, execRead, hpos, hm]

theorem exec_read_trigRead_waitAt {m : BitVec 2} {s : State} (hm : s.smode = m) : exec .read (waitAt .read .trigRead s) =
    fieldSet .read .trigRead .trigWrite modeField (m.setWidth 8) (readPoll 0) s :=
  (exec_read_trigRead (s := waitAt .read .trigRead s) hm rfl).trans (fieldSet_waitAt (readPoll_waitAt 0))

theorem trigRead_performs (m : BitVec 2) : Performs .read m .trigRead :=
  performs_memRead (fun _ hm hpos => exec_read_trigRead hm hpos) (fun _ hm => exec_read_trigRead_waitAt hm)
    (fun bs u hm => .on (.trigWrite (byteAt bs 0))
      (fun rest => (exec_read_trigWrite_waitAt (s := { u with inputs := rest }) _ hm).symm)) rfl (fun _ _ _ => rfl)

/-- Where the compensation answers a state, it has finished (R86). -/
theorem compensate_proceeds (d : List Byte) (u : State) : Proceeds .read u (compensate d) := by
  refine .done (fun rest t h => ?_)
  by_cases hstop : u.cfg.ovf = .fault ∧ noOverflow u.cal (adcT d).toInt (adcP d).toInt (adcH d).toInt = false
  · cases (compensate_overflow (s := { u with inputs := rest }) hstop.1 hstop.2).symm.trans h
  · cases (compensate_commits (s := { u with inputs := rest }) hstop).symm.trans h
    exact ⟨rfl, ⟨_, rfl⟩, rfl⟩

theorem burst_performs (m : BitVec 2) : Performs .read m .burst := by
  have hfirst : ∀ s, s.smode = m → s.pos = .burst → exec .read s = readBurst s :=
    fun s _ hpos => by simp [exec, execRead, hpos]
  exact performs_memRead hfirst (fun _ _ => rfl) (fun d u _ => compensate_proceeds d u) rfl (fun _ _ _ => rfl)

/-- What READ's first step does with the mode field it has read (R86, R88). -/
def afterModeRead (m : BitVec 2) (cur : Byte) (s : State) : Result :=
  if cur = 0 then fieldSet .read .trigRead .trigWrite modeField (m.setWidth 8) (readPoll 0) s else readPoll 0 s

/-- With a forced SMODE, READ's first step is a read of the mode field. -/
theorem readStart_forced {m : BitVec 2} {s : State} (hm : s.smode = m) (hforced : isForced m = true) :
    readStart s = fieldGet .read .start modeField (afterModeRead m) s := by
  unfold readStart
  rw [hm, if_pos hforced]
  rfl

/-- With any other SMODE, READ begins with its polls. -/
theorem readStart_unforced {s : State} (hforced : isForced s.smode = false) : readStart s = readPoll 0 s := by
  simp [readStart, hforced]

theorem afterModeRead_waitAt {j : Instr} {p : Pos} (m : BitVec 2) (cur : Byte) (s : State) :
    afterModeRead m cur (waitAt j p s) = afterModeRead m cur s := by
  unfold afterModeRead
  rw [fieldSet_waitAt (readPoll_waitAt 0), readPoll_waitAt]

theorem afterModeRead_proceeds {m : BitVec 2} (cur : Byte) {u : State} (hm : u.smode = m) :
    Proceeds .read u (afterModeRead m cur) := by
  by_cases hcur : cur = 0
  · exact .on .trigRead (fun rest =>
      (if_pos hcur).trans (exec_read_trigRead_waitAt (s := { u with inputs := rest }) hm).symm)
  · exact .on (.poll 0) (fun _ => (if_neg hcur).trans (exec_read_poll_waitAt 0 _).symm)

/-- READ from its first step. -/
theorem readStart_performs {m : BitVec 2} {q : Pos} (hq : ∀ s, s.pos = q → exec .read s = readStart s)
    (hin : ∀ s, inSequence s .read q = true → isForced s.smode = true ∧ .start = q) : Performs .read m q := by
  cases hforced : isForced m with
  | false =>
    refine poll_performs (n := 0) (fun s hm hpos => ?_) (fun s hm h => ?_)
    · rw [hq s hpos, readStart_unforced (by rw [hm, hforced])]
    · have hyes := (hin s h).1
      rw [hm, hforced] at hyes
      cases hyes
  | true =>
    refine performs_memRead (fun s hm hpos => (hq s hpos).trans (readStart_forced hm hforced)) (fun s hm => ?_)
      (fun bs u hm => afterModeRead_proceeds _ hm) (by simp [requestAt, firstRequest, hforced, modeField])
      (fun s _ h => (hin s h).2)
    exact (readStart_forced (s := waitAt .read .start s) hm hforced).trans
      (transact_waitAt (fun _ _ u => afterModeRead_waitAt m _ u))

theorem read_performs (m : BitVec 2) (q : Pos) : Performs .read m q := by
  cases q with
  | poll n => exact poll_performs (fun _ _ hpos => exec_read_poll hpos) (fun _ _ _ => rfl)
  | trigWrite old => exact trigWrite_performs m old
  | trigRead => exact trigRead_performs m
  | burst => exact burst_performs m
  | start => exact readStart_performs (fun s hpos => by simp [exec, execRead, hpos]) (fun _ h => ⟨h, rfl⟩)
  | _ => exact readStart_performs (fun s hpos => by simp [exec, execRead, hpos]) (fun _ h => by cases h)

/-! ### Every command -/

/-- From every position, whatever the inputs, a command either begins with a transaction or is one of OSR.SET and OSR.GET
with operands that are refused before any transaction (R77). -/
theorem exec_performs (i : Instr) (m : BitVec 2) (q : Pos) : Performs i m q ∨
    ∀ s, exec i s = .next (raise .failInvalid s) ∧ inSequence s i q = false := by
  cases i with
  | begin => exact .inl (begin_performs m q)
  | reset => exact .inl (reset_performs m q)
  | modeGet => exact .inl (getter_performs (f := modeField) q (fun _ => rfl) rfl (by cases q <;> simp [inSequence]))
  | modeSet a =>
    exact .inl (setter_performs (f := modeField) q (fun _ => rfl) (fun _ _ => rfl)
      (fun _ => .of_finish (fun _ => ⟨_, _, _, _, _, rfl, rfl, rfl⟩)) rfl rfl (by cases q <;> simp [inSequence]))
  | osrSet a b => exact osrSet_performs a b m q
  | osrGet a b => exact osrGet_performs a b m q
  | iirGet => exact .inl (getter_performs (f := filterField) q (fun _ => rfl) rfl (by cases q <;> simp [inSequence]))
  | iirSet a =>
    exact .inl (setter_performs (f := filterField) q (fun _ => rfl) (fun _ _ => rfl)
      (fun _ => .of_finish (fun _ => ⟨_, _, _, _, _, rfl, rfl, rfl⟩)) rfl rfl (by cases q <;> simp [inSequence]))
  | tsbGet => exact .inl (getter_performs (f := tsbField) q (fun _ => rfl) rfl (by cases q <;> simp [inSequence]))
  | tsbSet a =>
    exact .inl (setter_performs (f := tsbField) q (fun _ => rfl) (fun _ _ => rfl)
      (fun _ => .of_finish (fun _ => ⟨_, _, _, _, _, rfl, rfl, rfl⟩)) rfl rfl (by cases q <;> simp [inSequence]))
  | mtime a => exact .inl (mtime_performs a m q)
  | read => exact .inl (read_performs m q)

/-! ### The answer completes the outstanding transaction -/

/-- However a command's run ends, no input is added or taken there, and the history only grows. -/
theorem Ends.follows {i : Instr} {ok : Pos → Prop} {u t : State} (h : Ends i ok u (.next t)) :
    t.inputs = u.inputs ∧ ∃ evs, t.history = u.history ++ evs := by
  cases h with
  | wait p => exact ⟨rfl, [], by simp⟩
  | _ => exact ⟨rfl, _, rfl⟩

/-- Running a command takes inputs in order, and the history only grows. -/
theorem exec_follows {i : Instr} {s t : State} (h : exec i s = .next t) :
    (∃ taken, s.inputs = taken ++ t.inputs) ∧ ∃ evs, t.history = s.history ++ evs := by
  obtain ⟨u, hran, hends⟩ := exec_ends i s
  rw [h] at hends
  obtain ⟨hins, evs, hhist⟩ := hends.follows
  obtain ⟨evs', hhist', -⟩ := hran.history
  exact ⟨by rw [hins]; exact hran.inputs, evs' ++ evs, by rw [hhist, hhist', List.append_assoc]⟩

/-- What follows a transaction takes inputs in order, and the history only grows. -/
theorem Proceeds.follows {i : Instr} {u t : State} {k : State → Result} (hk : Proceeds i u k) (h : k u = .next t) :
    (∃ taken, u.inputs = taken ++ t.inputs) ∧ ∃ evs, t.history = u.history ++ evs := by
  cases hk with
  | on p hgo => exact exec_follows (s := waitAt i p u) ((hgo u.inputs).symm.trans h)
  | done hend =>
    obtain ⟨-, ⟨e, hhist⟩, hins⟩ := hend u.inputs t h
    exact ⟨⟨[], hins.symm⟩, [e], hhist⟩

/-- A transaction with an answer next takes the answer; a fitting one is recorded first, as the completion of what was
outstanding. -/
theorem Transacts.answered {i : Instr} {m : BitVec 2} {q p : Pos} {r : Request} {fits : List Byte → Bool}
    {event : Bool → List Byte → Event} {k : Bool → List Byte → State → Result}
    (h : Transacts i m q p r fits event k) {s t : State} {ack : Bool} {bs : List Byte} {rest : List Input}
    (hm : s.smode = m) (hpos : s.pos = q) (hin : s.inputs = .sensor ack bs :: rest) (hexec : exec i s = .next t) :
    (∃ taken, rest = taken ++ t.inputs) ∧
      ((∀ a n, r = .read a n → bs.length = n) →
        ∃ e evs, t.history = s.history ++ e :: evs ∧ e.completes r = true) := by
  rw [h.first s hm hpos] at hexec
  cases hfit : fits bs with
  | false =>
    rw [transact_misfit i p fits event k s hin hfit] at hexec
    cases hexec
    exact ⟨⟨[], rfl⟩, fun hlen => by rw [h.accepts bs hlen] at hfit; cases hfit⟩
  | true =>
    rw [transact_answered i p fits event k s hin hfit] at hexec
    obtain ⟨htaken, evs, hhist⟩ :=
      (h.proceeds ack bs (record (event ack bs) { s with inputs := rest }) hm).follows hexec
    exact ⟨htaken, fun _ => ⟨event ack bs, evs, by simpa using hhist, h.completes ack bs hfit⟩⟩

/-- With the invariant, a command in flight has its run's next transaction outstanding. -/
theorem inv_performs {s : State} {i : Instr} {p : Pos} (hinv : Inv s) (hseq : s.seq = .busy i p) :
    ∃ r fits event k, Transacts i s.smode p p r fits event k ∧ s.request = some r := by
  have hflight := hinv.flight
  simp only [flightOk, hseq, Bool.and_eq_true, beq_iff_eq] at hflight
  obtain ⟨p', r, fits, event, k, htrans, hreq, hp⟩ | hnone := exec_performs i s.smode p
  · cases hp s rfl hflight.2
    exact ⟨r, fits, event, k, htrans, by simp [State.request, hseq, hreq]⟩
  · have hno := (hnone s).2
    rw [hflight.2] at hno
    cases hno

theorem pos_of_busy {s : State} {i : Instr} {p : Pos} (hseq : s.seq = .busy i p) : s.pos = p := by
  simp [State.pos, hseq]

/-- Settles O50: a command in flight is at one of its rule's transactions, and its step is that transaction first. -/
theorem answerCompletesOutstandingTransaction : Obligations.AnswerCompletesOutstandingTransaction := by
  intro s hinv hbusy
  cases hseq : s.seq with
  | idle => exact absurd hseq hbusy
  | busy i p =>
    obtain ⟨r, fits, event, k, htrans, hreq⟩ := inv_performs hinv hseq
    refine ⟨r, hreq, fun ack bs rest t hin hlen h => ?_⟩
    rw [stepResumesCommandInFlight s i p ack bs rest hseq hin] at h
    exact (htrans.answered rfl (pos_of_busy hseq) hin h).2 hlen

/-- A step that runs a command takes the input that lets it run, and more inputs in order. -/
theorem Runs.takes {s s' t : State} {i : Instr} (hinv : Inv s) (hruns : Runs s i s') (h : exec i s' = .next t) :
    ∃ x taken, s.inputs = x :: taken ++ t.inputs := by
  cases hruns with
  | started addr width w rest _ hin _ =>
    obtain ⟨⟨taken, htaken⟩, -⟩ := exec_follows h
    exact ⟨_, taken, by rw [hin, List.cons_append, ← htaken]⟩
  | resumed p ack bs rest hseq hin =>
    obtain ⟨r, fits, event, k, htrans, -⟩ := inv_performs hinv hseq
    obtain ⟨⟨taken, htaken⟩, -⟩ := htrans.answered rfl (pos_of_busy hseq) hin h
    exact ⟨_, taken, by rw [hin, List.cons_append, ← htaken]⟩

/-- Settles O56: a step that runs no command takes the next input; one that runs a command takes the word or the answer that
lets it run, and the answers it goes on with. -/
theorem stepTakesAnInput : Obligations.StepTakesAnInput := by
  intro s t hinv hne h
  have hhead {u : State} (hu : u.inputs = s.inputs.tail) : ∃ taken, taken ≠ [] ∧ s.inputs = taken ++ u.inputs :=
    ⟨[s.inputs.head hne], by simp, by simp [hu]⟩
  cases step_stepTo h with
  | powerOn rest hin ht => exact ⟨[.powerOn], by simp, by rw [hin, ht]; rfl⟩
  | quiet hq => exact hhead hq.inputs
  | illegal w _ ht => exact hhead (by rw [ht]; rfl)
  | command i s' hruns _ hexec =>
    obtain ⟨x, taken, htaken⟩ := hruns.takes hinv hexec
    exact ⟨x :: taken, by simp, htaken⟩

/-! ### Going on later -/

/-- A run that leaves its command in flight begins with a transaction. -/
theorem performs_of_exec_busy {i : Instr} {s t : State} (h : exec i s = .next t) (hbusy : t.seq ≠ .idle) :
    Performs i s.smode s.pos := by
  obtain hperf | hnone := exec_performs i s.smode s.pos
  · exact hperf
  · cases (hnone s).1.symm.trans h
    exact absurd rfl hbusy

/-- Settles O54, by induction on the answers: each completes the next transaction of the rule, and where they are used up the
command waits for the transaction that going on later begins with. -/
theorem resumingIsSeamless : Obligations.ResumingIsSeamless := by
  intro i s t p answers later hsensor h hseq hins hlen
  induction answers generalizing s with
  | nil =>
    obtain ⟨p', r, fits, event, k, htrans, -⟩ := performs_of_exec_busy h (by simp [hseq])
    have hwait := h
    rw [htrans.first { s with inputs := [] } rfl rfl, transact_waits _ _ _ _ _ _ (by simp)] at hwait
    cases hwait
    exact (htrans.first { s with inputs := later } rfl rfl).trans (htrans.again { s with inputs := later } rfl).symm
  | cons x rest ih =>
    obtain ⟨ack, bs, rfl⟩ := hsensor x (by simp)
    obtain ⟨p', r, fits, event, k, htrans, -⟩ := performs_of_exec_busy h (by simp [hseq])
    have hfirst := htrans.first { s with inputs := .sensor ack bs :: rest } rfl rfl
    cases hfit : fits bs with
    | false =>
      rw [hfirst, transact_misfit _ _ _ _ _ _ rfl hfit] at h
      cases h
      simp at hlen
    | true =>
      rw [hfirst, transact_answered _ _ _ _ _ _ rfl hfit] at h
      have hlater := (htrans.first { s with inputs := .sensor ack bs :: (rest ++ later) } rfl rfl).trans
        (transact_answered _ _ _ _ _ _ rfl hfit)
      cases htrans.proceeds ack bs (record (event ack bs) s) rfl with
      | on p'' hgo =>
        refine hlater.trans ((hgo (rest ++ later)).trans (ih (waitAt i p'' (record (event ack bs) s)) ?_ ?_ ?_))
        · exact fun y hy => hsensor y (by simp [hy])
        · exact (hgo rest).symm.trans h
        · simp at hlen ⊢
          omega
      | done hend =>
        rw [(hend rest t h).1] at hseq
        cases hseq

end Sys2Proof.Machine
end

section
/-! READ does not depend on the readings that stand before it (10_state R13, 42_compensation R87, 70_reset R133): the run
from a state with other readings takes the same way through READ, up to a compensation that overwrites all of them. -/

namespace Sys2Proof.Machine

/-- `s` with other values of T_FINE, TOUT, HOUT and POUT. -/
def withReadings (f x y z : Word) (s : State) : State := { s with tFine := f, tout := x, hout := y, pout := z }

/-- From a state with other readings `k` gives the same state, wherever it finishes OK. -/
def IgnoresReadings (k : State → Result) : Prop :=
  ∀ (f x y z : Word) (s t : State), k s = .next t → t.seq = .idle → t.code = .ok →
    k (withReadings f x y z s) = .next t

/-- What ends with another outcome ignores the readings. -/
theorem raise_ignoresReadings {c : Code} (hc : c ≠ .ok) : IgnoresReadings (fun s => .next (raise c s)) := by
  intro f x y z s t h _ hok
  cases h
  exact absurd hok hc

/-- A transaction ignores the readings if what follows it does. -/
theorem transact_ignoresReadings {i : Instr} {p : Pos} {fits : List Byte → Bool} {event : Bool → List Byte → Event}
    {k : Bool → List Byte → State → Result} (hk : ∀ ack bs, IgnoresReadings (k ack bs)) :
    IgnoresReadings (transact i p fits event k) := by
  intro f x y z s t h hidle hok
  obtain ⟨ack, bs, rest, hin, hfit, e⟩ | ⟨ack, bs, rest, -, -, e⟩ | ⟨-, e⟩ :=
    transact_cases i p fits event k s <;> rw [e] at h
  · rw [transact_answered i p fits event k (withReadings f x y z s) hin hfit]
    exact hk ack bs f x y z _ t h hidle hok
  · cases h
    cases hidle
  · cases h
    cases hidle

theorem memRead_ignoresReadings {i : Instr} {p : Pos} {a : Byte} {n : Nat} {k : List Byte → State → Result}
    (hk : ∀ bs, IgnoresReadings (k bs)) : IgnoresReadings (memRead i p a n k) :=
  transact_ignoresReadings (fun _ => hk)

theorem fieldPut_ignoresReadings {i : Instr} {q : Byte → Pos} {f : Field} {v old : Byte} {k : State → Result}
    (hk : IgnoresReadings k) : IgnoresReadings (fieldPut i q f v old k) :=
  transact_ignoresReadings (fun _ _ => hk)

theorem fieldSet_ignoresReadings {i : Instr} {p : Pos} {q : Byte → Pos} {f : Field} {v : Byte} {k : State → Result}
    (hk : IgnoresReadings k) : IgnoresReadings (fieldSet i p q f v k) :=
  memRead_ignoresReadings (fun _ => fieldPut_ignoresReadings hk)

/-- The compensation reads CAL, the parameters and the burst, and overwrites every reading (R87). -/
theorem compensate_ignoresReadings (d : List Byte) : IgnoresReadings (compensate d) := by
  intro f x y z s t h _ _
  by_cases hstop : s.cfg.ovf = .fault ∧ noOverflow s.cal (adcT d).toInt (adcP d).toInt (adcH d).toInt = false
  · cases (compensate_overflow hstop.1 hstop.2).symm.trans h
  · rw [compensate_commits hstop] at h
    exact (compensate_commits (s := withReadings f x y z s) hstop).trans h

theorem readBurst_ignoresReadings : IgnoresReadings readBurst :=
  memRead_ignoresReadings compensate_ignoresReadings

/-- A choice by what is no reading ignores the readings if both ways do. -/
theorem ite_ignoresReadings {c : State → Prop} [DecidablePred c] {k k' : State → Result}
    (hc : ∀ f x y z s, c (withReadings f x y z s) ↔ c s) (hk : IgnoresReadings k) (hk' : IgnoresReadings k') :
    IgnoresReadings (fun s => if c s then k s else k' s) := by
  intro f x y z s t h hidle hok
  by_cases hcs : c s
  · exact (if_pos ((hc f x y z s).mpr hcs)).trans (hk f x y z s t ((if_pos hcs).symm.trans h) hidle hok)
  · exact (if_neg (fun h' => hcs ((hc f x y z s).mp h'))).trans
      (hk' f x y z s t ((if_neg hcs).symm.trans h) hidle hok)

/-- What follows a status poll looks at the poll's byte and the parameters (R89). -/
theorem afterPoll_ignoresReadings {n : Nat} {more : State → Result} (hmore : IgnoresReadings more) (bs : List Byte) :
    IgnoresReadings (fun t =>
      if byteAt bs 0 &&& busyMask = 0 then readBurst t
      else if pollsExhausted t.cfg (n + 1) then .next (raise .timeout t) else more t) :=
  ite_ignoresReadings (fun _ _ _ _ _ => Iff.rfl) readBurst_ignoresReadings
    (ite_ignoresReadings (fun _ _ _ _ _ => Iff.rfl) (raise_ignoresReadings (by decide)) hmore)

theorem pollStatus_ignoresReadings (fuel : Nat) : ∀ n, IgnoresReadings (pollStatus fuel n) := by
  induction fuel with
  | zero =>
    intro n
    have hwait : IgnoresReadings (fun t => .next (waitAt .read (.poll (n + 1)) t)) := by
      intro f x y z s t h hidle _
      cases h
      cases hidle
    intro f x y z s
    unfold pollStatus
    exact memRead_ignoresReadings (afterPoll_ignoresReadings hwait) f x y z s
  | succ fuel ih =>
    intro n f x y z s
    unfold pollStatus
    exact memRead_ignoresReadings (afterPoll_ignoresReadings (ih (n + 1))) f x y z s

theorem readPoll_ignoresReadings (n : Nat) : IgnoresReadings (readPoll n) :=
  fun f x y z s => pollStatus_ignoresReadings s.inputs.length n f x y z s

theorem afterModeRead_ignoresReadings (m : BitVec 2) (cur : Byte) : IgnoresReadings (afterModeRead m cur) :=
  ite_ignoresReadings (fun _ _ _ _ _ => Iff.rfl) (fieldSet_ignoresReadings (readPoll_ignoresReadings 0))
    (readPoll_ignoresReadings 0)

theorem readStart_ignoresReadings : IgnoresReadings readStart := by
  intro f x y z s t h hidle hok
  cases hforced : isForced s.smode with
  | true =>
    rw [readStart_forced rfl hforced] at h
    exact (readStart_forced (s := withReadings f x y z s) rfl hforced).trans
      (memRead_ignoresReadings (fun _ => afterModeRead_ignoresReadings _ _) f x y z s t h hidle hok)
  | false =>
    rw [readStart_unforced hforced] at h
    exact (readStart_unforced (s := withReadings f x y z s) hforced).trans
      (readPoll_ignoresReadings 0 f x y z s t h hidle hok)

/-- From every position READ is a run that ignores the readings. -/
theorem exec_read_ignoring (m : BitVec 2) (q : Pos) :
    ∃ k, IgnoresReadings k ∧ ∀ s, s.smode = m → s.pos = q → exec .read s = k s := by
  cases q with
  | trigRead =>
    exact ⟨_, fieldSet_ignoresReadings (readPoll_ignoresReadings 0), fun _ hm hpos => exec_read_trigRead hm hpos⟩
  | trigWrite old =>
    exact ⟨_, fieldPut_ignoresReadings (readPoll_ignoresReadings 0), fun _ hm hpos => exec_read_trigWrite hm hpos⟩
  | poll n => exact ⟨_, readPoll_ignoresReadings n, fun _ _ hpos => exec_read_poll hpos⟩
  | burst => exact ⟨_, readBurst_ignoresReadings, fun _ _ hpos => by simp [exec, execRead, hpos]⟩
  | _ => exact ⟨_, readStart_ignoresReadings, fun _ _ hpos => by simp [exec, execRead, hpos]⟩

/-- Settles O32: READ finishes OK in the very same state. -/
theorem readIgnoresEarlierReadings : Obligations.ReadIgnoresEarlierReadings := by
  intro s t f x y z h hidle hok
  obtain ⟨k, hk, hexec⟩ := exec_read_ignoring s.smode s.pos
  rw [hexec s rfl rfl] at h
  have hsame := (hexec (withReadings f x y z s) rfl rfl).trans (hk f x y z s t h hidle hok)
  exact ⟨t, hsame, hidle, hok, rfl, rfl, rfl, rfl, rfl, rfl, rfl, rfl⟩

end Sys2Proof.Machine
end

section
/-! Which sensor-port transactions the history shows (20_memory R46, R47, R50, R62, R63): those of the command's row, and so
only registers of the list of R27. -/

namespace Sys2Proof.Machine

/-- Settles O51: the step of a BUSY engine with no input is the hang. -/
theorem unansweredTransactionHangs : Obligations.UnansweredTransactionHangs := by
  intro s i p hseq hin
  simp [step, serve, hin, hseq]

/-! ### Growth of the history -/

/-- The history `old` has grown to `new` by events with the property `P` only. -/
def GrowsBy (P : Event → Bool) (old new : List Event) : Prop :=
  ∃ evs, new = old ++ evs ∧ ∀ e ∈ evs, P e = true

section
variable {P Q : Event → Bool} {a b c : List Event}

theorem GrowsBy.refl (P : Event → Bool) (a : List Event) : GrowsBy P a a :=
  ⟨[], by simp, by simp⟩

theorem GrowsBy.single {e : Event} (he : P e = true) : GrowsBy P a (a ++ [e]) :=
  ⟨[e], rfl, by simpa using he⟩

theorem GrowsBy.trans (hab : GrowsBy P a b) (hbc : GrowsBy P b c) : GrowsBy P a c := by
  obtain ⟨evs, rfl, hevs⟩ := hab
  obtain ⟨evs', rfl, hevs'⟩ := hbc
  exact ⟨evs ++ evs', List.append_assoc .., fun e he => (List.mem_append.mp he).elim (hevs e) (hevs' e)⟩

theorem GrowsBy.mono (h : GrowsBy P a b) (hPQ : ∀ e, P e = true → Q e = true) : GrowsBy Q a b := by
  obtain ⟨evs, hhist, hevs⟩ := h
  exact ⟨evs, hhist, fun e he => hPQ e (hevs e he)⟩

end

/-! ### A command's row -/

/-- However a command's run ends, all it records there is the finish. -/
theorem Ends.growsBy_allowed {i : Instr} {ok : Pos → Prop} {u t : State} (h : Ends i ok u (.next t)) :
    GrowsBy (allowed i) u.history t.history := by
  cases h with
  | wait p => exact .refl _ _
  | _ => exact .single rfl

/-- Settles O48: a run records transactions of its command's row, and then at most the finish. -/
theorem commandsPerformOnlyTheirTransactions : Obligations.CommandsPerformOnlyTheirTransactions := by
  intro i s t h
  obtain ⟨u, hran, hends⟩ := exec_ends i s
  rw [h] at hends
  have hrun : GrowsBy (allowed i) s.history u.history := hran.history
  exact hrun.trans hends.growsBy_allowed

/-! ### The registers of R27 -/

/-- Every read of every row of R50 reaches readable registers of R27 only. -/
theorem readsOf_reachesListed (i : Instr) :
    ∀ q ∈ readsOf i, ∀ bs ack, reachesListed (.read q.1 q.2 bs ack) = true := by
  have hrow : (readsOf i).all (fun q => reachesListed (.read q.1 q.2 [] none)) = true := by
    cases i with
    | osrSet a b =>
      rw [readsOf]
      split
      · split <;> rfl
      · rfl
    | osrGet a b =>
      rw [readsOf]
      split
      · split <;> rfl
      · rfl
    | _ => rfl
  exact fun q hq _ _ => List.all_eq_true.mp hrow q hq

/-- Every write of every row of R50 reaches writable registers of R27 only. -/
theorem writesOf_reachesListed (i : Instr) : ∀ a ∈ writesOf i, ∀ v, reachesListed (.write a v) = true := by
  have hrow : (writesOf i).all (fun a => reachesListed (.write a 0)) = true := by
    cases i with
    | osrSet a b =>
      rw [writesOf]
      split
      · split <;> rfl
      · rfl
    | _ => rfl
  exact fun a ha _ => List.all_eq_true.mp hrow a ha

/-- What a row of R50 allows stays within R27. -/
theorem reachesListed_of_allowed {i : Instr} {e : Event} (h : allowed i e = true) : reachesListed e = true := by
  cases e with
  | read a n bs ack =>
    simp only [allowed, Bool.and_eq_true, List.contains_iff_mem] at h
    exact readsOf_reachesListed i (a, n) h.1.1 bs ack
  | write a v =>
    simp only [allowed, Bool.and_eq_true, List.contains_iff_mem] at h
    exact writesOf_reachesListed i a h.1 v
  | finish regs => rfl

theorem exec_reachesListed {i : Instr} {s t : State} (h : exec i s = .next t) :
    GrowsBy reachesListed s.history t.history :=
  GrowsBy.mono (commandsPerformOnlyTheirTransactions i s t h) (fun _ => reachesListed_of_allowed)

/-- An accepted word runs its command, or is raised ILLEGAL with a finish and no transaction (R110). -/
theorem accept_reachesListed {w : Word} {s t : State} (h : accept w s = .next t) :
    GrowsBy reachesListed s.history t.history := by
  obtain ⟨i, -, e⟩ | ⟨r, -, e⟩ := accept_cases w s <;> rw [e] at h
  · exact (exec_reachesListed h :)
  · cases h
    exact .single rfl

theorem hostWrite_reachesListed {addr width : Nat} {data : Word} {s t : State}
    (h : hostWrite addr width data s = .next t) : GrowsBy reachesListed s.history t.history := by
  obtain ⟨-, -, e⟩ | e := hostWrite_cases addr width data s <;> rw [e] at h
  · exact accept_reachesListed h
  · cases h
    exact .refl _ _

/-- A host read records no event (R64). -/
theorem hostRead_history (addr width : Nat) (s : State) : (hostRead addr width s).history = s.history := by
  obtain e | ⟨v, e⟩ := hostRead_cases addr width s <;> rw [e]

/-- Settles O49: a step that adds events has run a command, whose row stays within R27, or raised ILLEGAL. -/
theorem stepReachesOnlyListedRegisters : Obligations.StepReachesOnlyListedRegisters := by
  intro s t h
  show GrowsBy reachesListed s.history t.history
  unfold step at h
  obtain ⟨-, -, e⟩ | ⟨-, -, e⟩ | ⟨addr, width, data, rest, -, e⟩ | ⟨addr, width, rest, -, e⟩ | ⟨ack, bs, rest, -, -, e⟩ |
    ⟨ack, bs, rest, i, p, -, -, e⟩ | ⟨rest, -, e⟩ := serve_cases s <;> rw [e] at h
  · cases h
    exact .refl _ _
  · cases h
  · exact (hostWrite_reachesListed h :)
  · cases h
    rw [hostRead_history]
    exact .refl _ _
  · cases h
    exact .refl _ _
  · exact exec_reachesListed h
  · cases h
    exact .refl _ _

end Sys2Proof.Machine
end

section
/-! The encoding (30_encoding R65-R69): what the opcode map answers, said once in each direction, and a command word cut
into its four fields. -/

namespace Sys2Proof.Machine

/-! ### The opcode map -/

/-- The opcode map reads every command from its own opcode and operands (R67). -/
theorem decodeOp_opcode (i : Instr) : decodeOp (opcode i) (operandA i) (operandB i) = .command i := by
  cases i <;> rfl

/-- Whether a command takes field A (R67). -/
def takesA : Instr → Bool
  | .modeSet _ | .osrSet _ _ | .osrGet _ _ | .iirSet _ | .tsbSet _ | .mtime _ => true
  | .begin | .reset | .modeGet | .iirGet | .tsbGet | .read => false

/-- Whether a command takes field B (R67). -/
def takesB : Instr → Bool
  | .osrSet _ _ | .osrGet _ _ => true
  | .begin | .reset | .modeGet | .modeSet _ | .iirGet | .iirSet _ | .tsbGet | .tsbSet _ | .mtime _ | .read => false

/-- All that the opcode map reads: the command with the opcode `op`, its operands the fields it takes (R67, R68). -/
theorem decodeOp_command {op a b : Nat} {i : Instr} (h : decodeOp op a b = .command i) :
    opcode i = op ∧ operandA i = (if takesA i then a else 0) ∧ operandB i = (if takesB i then b else 0) := by
  unfold decodeOp at h
  split at h <;> cases h <;> exact ⟨rfl, rfl, rfl⟩

/-- The opcodes of the map are 0x01 to 0x0C (R67). -/
theorem opcode_bounds (i : Instr) : 1 ≤ opcode i ∧ opcode i ≤ 12 := by
  cases i <;> simp [opcode]

/-- The opcode map has a command at each of 0x01 to 0x0C. -/
theorem decodeOp_defined {op : Nat} (a b : Nat) (h : 1 ≤ op ∧ op ≤ 12) : ∃ i, decodeOp op a b = .command i := by
  obtain ⟨h1, h12⟩ := h
  interval_cases op <;> exact ⟨_, rfl⟩

/-- The opcode map rejects exactly what is none of the twelve opcodes (R66). -/
theorem decodeOp_rejected_iff (op a b : Nat) :
    (∃ r, decodeOp op a b = .rejected r) ↔ ¬ (1 ≤ op ∧ op ≤ 12) := by
  constructor
  · rintro ⟨r, hr⟩ hop
    obtain ⟨i, hi⟩ := decodeOp_defined a b hop
    cases hi.symm.trans hr
  · intro hop
    cases hd : decodeOp op a b with
    | command i => exact absurd ((decodeOp_command hd).1 ▸ opcode_bounds i) hop
    | rejected r => exact ⟨r, rfl⟩

/-! ### The decoder -/

/-- The decoder is the opcode map where RSV is 0. -/
theorem decode_of_rsv_zero {w : Word} (h : rsvField w = 0) : decode w = decodeOp (opField w) (aField w) (bField w) :=
  if_pos h

/-- A word with RSV other than 0 is rejected (R66). -/
theorem decode_of_rsv_ne_zero {w : Word} (h : rsvField w ≠ 0) : decode w = .rejected .reservedBits :=
  if_neg h

/-- A word that decodes to a command has RSV 0, and the opcode map reads the command from its fields. -/
theorem decode_command {w : Word} {i : Instr} (h : decode w = .command i) :
    rsvField w = 0 ∧ decodeOp (opField w) (aField w) (bField w) = .command i := by
  by_cases hr : rsvField w = 0
  · exact ⟨hr, (decode_of_rsv_zero hr).symm.trans h⟩
  · cases (decode_of_rsv_ne_zero hr).symm.trans h

/-- RSV as a number is 0 exactly when bits 23:16 are. -/
theorem rsvField_eq_zero_iff (w : Word) : rsvField w = 0 ↔ w.extractLsb' 16 8 = 0#8 :=
  BitVec.toNat_inj (y := 0#8)

/-- Settles O3: the fields of the encoder's word are the command's opcode, 0 and operands, and the opcode map reads the
command from them. -/
theorem decodeEncodeRoundTrip : Obligations.DecodeEncodeRoundTrip := by
  intro i hwf
  obtain ⟨hop, hrsv, ha, hb⟩ := fields_encode hwf
  rw [decode_of_rsv_zero hrsv, hop, ha, hb]
  exact decodeOp_opcode i

/-- Settles O4: RSV decides first, and where it is 0 the opcode map rejects all but its twelve opcodes. -/
theorem illegalWordsExactly : Obligations.IllegalWordsExactly := by
  intro w
  rw [ne_eq, ← rsvField_eq_zero_iff]
  by_cases hr : rsvField w = 0
  · have hmap := decodeOp_rejected_iff (opField w) (aField w) (bField w)
    rw [decode_of_rsv_zero hr, hmap]
    exact (or_iff_right (not_not_intro hr)).symm
  · exact iff_of_true ⟨_, decode_of_rsv_ne_zero hr⟩ (.inl hr)

/-! ### A command word as its four fields -/

/-- A word is its fields OP, RSV, A and B side by side (R65). -/
theorem word_eq_fields (w : Word) :
    w = BitVec.ofNat 8 (opField w) ++ BitVec.ofNat 8 (rsvField w) ++ BitVec.ofNat 8 (aField w) ++
      BitVec.ofNat 8 (bField w) := by
  obtain ⟨hop, hrsv, ha, hb⟩ := fields_toNat w
  apply BitVec.eq_of_toNat_eq
  rw [toNat_append_add, toNat_append_add, toNat_append_add, hop, hrsv, ha, hb]
  simp only [BitVec.toNat_ofNat]
  omega

/-- All bits of a field the command takes, none of one it ignores. -/
def fieldMask (taken : Bool) : Byte := if taken then 0xFF#8 else 0#8

/-- Masking a field keeps it where it is taken and clears it where it is ignored. -/
theorem and_fieldMask (taken : Bool) (x : Nat) :
    BitVec.ofNat 8 x &&& fieldMask taken = BitVec.ofNat 8 (if taken then x else 0) := by
  cases taken
  · exact BitVec.and_zero
  · exact BitVec.and_allOnes

/-- The bits of OP and RSV, and of the operand fields that are taken. -/
def wordMask (takenA takenB : Bool) : Word := 0xFF#8 ++ 0xFF#8 ++ fieldMask takenA ++ fieldMask takenB

theorem wordMask_none : wordMask false false = 0xFFFF0000#32 := by decide
theorem wordMask_A : wordMask true false = 0xFFFFFF00#32 := by decide
theorem wordMask_AB : wordMask true true = 0xFFFFFFFF#32 := by decide

/-- A word decodes to the command whose encoding is the word with the ignored fields cleared (R66, R69). -/
theorem encode_of_decode {w : Word} {i : Instr} (h : decode w = .command i) :
    encode i = w &&& wordMask (takesA i) (takesB i) := by
  obtain ⟨hrsv, hmap⟩ := decode_command h
  obtain ⟨hop, ha, hb⟩ := decodeOp_command hmap
  calc encode i
      = BitVec.ofNat 8 (opField w) ++ 0#8 ++ BitVec.ofNat 8 (if takesA i then aField w else 0) ++
          BitVec.ofNat 8 (if takesB i then bField w else 0) := by rw [encode, hop, ha, hb]
    _ = (BitVec.ofNat 8 (opField w) ++ BitVec.ofNat 8 (rsvField w) ++ BitVec.ofNat 8 (aField w) ++
          BitVec.ofNat 8 (bField w)) &&& wordMask (takesA i) (takesB i) := by
        rw [wordMask, BitVec.and_append, BitVec.and_append, BitVec.and_append, and_fieldMask, and_fieldMask, hrsv]
        congr 3
        exact BitVec.and_allOnes.symm
    _ = w &&& wordMask (takesA i) (takesB i) := by rw [← word_eq_fields]

/-- A command whose operands fit their fields is well-formed (R65). -/
theorem wf_of_operands_lt {i : Instr} (ha : operandA i < 256) (hb : operandB i < 256) : i.wf := by
  cases i with
  | begin | reset | modeGet | iirGet | tsbGet | read => trivial
  | modeSet | iirSet | tsbSet | mtime => exact ha
  | osrSet | osrGet => exact ⟨ha, hb⟩

/-- The decoder answers well-formed commands only: an operand is a field of the word, or 0. -/
theorem wf_of_decode {w : Word} {i : Instr} (h : decode w = .command i) : i.wf := by
  obtain ⟨-, ha, hb⟩ := decodeOp_command (decode_command h).2
  have hA : aField w < 256 := BitVec.isLt _
  have hB : bField w < 256 := BitVec.isLt _
  apply wf_of_operands_lt
  · rw [ha]; split <;> omega
  · rw [hb]; split <;> omega

/-- Settles O5: the encoding is the word masked by the fields its command takes, and each command's mask is the one written out. -/
theorem encodeDecodeDropsIgnoredFields : Obligations.EncodeDecodeDropsIgnoredFields := by
  intro w i h
  refine ⟨wf_of_decode h, (encode_of_decode h).trans (congrArg (w &&& ·) ?_)⟩
  cases i with
  | begin | reset | modeGet | iirGet | tsbGet | read => exact wordMask_none
  | modeSet | iirSet | tsbSet | mtime => exact wordMask_A
  | osrSet | osrGet => exact wordMask_AB

/-! ### Words and lines written out -/

/-- Settles O6: nine closed words, decoded. -/
theorem writtenWordsDecode : Obligations.WrittenWordsDecode := by
  unfold Obligations.WrittenWordsDecode
  decide

/-- Settles O7: eight closed lines, assembled and encoded. -/
theorem assemblerLinesEncode : Obligations.AssemblerLinesEncode := by
  unfold Obligations.AssemblerLinesEncode
  decide

end Sys2Proof.Machine
end


section
/-! Initialization (40_initialization R70, R71): the calibration load and the identity check before it, for BEGIN and RESET
alike, and the numbers `assemble` makes of the bytes read. -/

namespace Sys2Proof.Machine

/-! ### What finishing answers -/

/-- A command that got to `u` by the transactions `evs`, with CMD and the model's edges kept, finishes there. -/
theorem finish_finished {s u : State} {evs : List Event} {rest : List Input} (c : Code) (r0 r1 r2 : Word)
    (hin : u.inputs = rest) (hhist : u.history = s.history ++ evs) (hedges : EdgesKept s u) :
    Finished s (finish c r0 r1 r2 u) c r0 r1 r2 evs rest where
  code := rfl
  res0 := rfl
  res1 := rfl
  res2 := rfl
  seq := rfl
  inputs := hin
  history := by rw [finish_history, hhist]
  edges := ⟨hedges.cmd, hedges.cfg, hedges.replies⟩

/-! ### The identity check and the calibration load -/

section
variable {i : Instr} {p : Pos} {s : State} {a1 a2 a3 : Bool} {c : List Byte} {h1 : Byte} {e : List Byte} {rest : List Input}

/-- The calibration load with its three reads answered, whatever their transport status: it commits the assembled bytes. -/
theorem loadTP_answered (hc : c.length = 24) (he : e.length = 7)
    (hin : s.inputs = .sensor a1 c :: .sensor a2 [h1] :: .sensor a3 e :: rest) :
    loadTP i s = .next (finish .ok 1 0 0 { s with
      inputs := rest
      history := s.history ++ [.read 0x88 24 c none, .read 0xA1 1 [h1] none, .read 0xE1 7 e none]
      cal := assemble c [h1] e }) := by
  rw [loadTP, memRead_answered i .calTP 0x88 24 _ s hin hc,
    loadH1, memRead_answered i (.calH1 c) 0xA1 1 _ _ (record_inputs _ _) rfl,
    loadH, memRead_answered i (.calH c [h1]) 0xE1 7 _ _ (record_inputs _ _) he]
  simp [record]

/-- The identity check passes when the read is acknowledged and the byte is the chip's (R70). -/
theorem identify_passes {more : List Input} (hin : s.inputs = .sensor true [chipId] :: more) :
    identify i p s = loadTP i (record (.read 0xD0 1 [chipId] (some true)) { s with inputs := more }) :=
  memReadAck_answered i p 0xD0 1 _ s hin rfl

/-- The identity check fails when the read is not acknowledged, whatever the byte, and for any other byte (R70, R113). -/
theorem identify_fails {ack : Bool} {id : Byte} (hbad : ack = false ∨ id ≠ chipId)
    (hin : s.inputs = .sensor ack [id] :: rest) :
    identify i p s = .next (raise .failNodev (record (.read 0xD0 1 [id] (some ack)) { s with inputs := rest })) := by
  rw [identify, memReadAck_answered i p 0xD0 1 _ s hin rfl]
  exact if_pos (by simpa [byteAt] using hbad)

end

/-- BEGIN from its first transaction is the identity check. -/
theorem exec_begin_start {s : State} (hpos : s.pos = .start) : exec .begin s = identify .begin .start s := by
  simp [exec, execBegin, resumeLoad, hpos]

/-- Settles O15: BEGIN is the identity check, which fails with nothing committed or goes on to the calibration load. -/
theorem beginChecksIdentityAndLoads : Obligations.BeginChecksIdentityAndLoads := by
  refine ⟨by decide, fun s hpos => ?_⟩
  rw [exec_begin_start hpos]
  constructor
  · intro a1 a2 a3 c h1 e rest hc he hin
    rw [identify_passes hin, loadTP_answered hc he (record_inputs _ _)]
    exact ⟨_, rfl, finish_finished _ _ _ _ rfl (by simp [chipId]) ⟨rfl, rfl, rfl⟩, rfl, ⟨rfl, rfl, rfl, rfl, rfl, rfl⟩⟩
  · intro ack id rest hbad hin
    rw [identify_fails hbad hin]
    exact ⟨_, rfl, finish_finished _ _ _ _ rfl rfl ⟨rfl, rfl, rfl⟩, ⟨rfl, rfl, rfl, rfl, rfl, rfl⟩⟩

/-! ### Numbers made of bytes -/

/-- A vector read as signed is the two's-complement number its unsigned value stands for. -/
theorem toInt_eq_signedOf {n : Nat} (x : BitVec n) : x.toInt = signedOf n x.toNat := by
  have htop : 2 * x.toNat < 2 ^ n ↔ x.toNat < 2 ^ (n - 1) := by
    cases n with
    | zero => simp [BitVec.eq_nil x]
    | succ n => rw [Nat.add_sub_cancel]; omega
  rw [BitVec.toInt_eq_toNat_cond, signedOf, if_congr htop rfl rfl, Nat.cast_pow, Nat.cast_ofNat]

/-- A byte pair, low byte first, as an unsigned number. -/
theorem le16_toNat (bs : List Byte) (k : Nat) : (le16 bs k).toNat = u16Of (byteAt bs k) (byteAt bs (k + 1)) := by
  rw [le16, toNat_append_add, u16Of]
  omega

/-- A byte pair, low byte first, as a signed number. -/
theorem le16_toInt (bs : List Byte) (k : Nat) :
    (le16 bs k).toInt = signedOf 16 (u16Of (byteAt bs k) (byteAt bs (k + 1))) := by
  rw [toInt_eq_signedOf, le16_toNat]

/-- A byte above a nibble, sign-extended from 12 bits (R11), as a signed number. -/
theorem sext12_toInt (hi : Byte) (lo : BitVec 4) :
    ((hi ++ lo).signExtend 16).toInt = signedOf 12 (hi.toNat * 16 + lo.toNat) := by
  rw [BitVec.toInt_signExtend_of_le (by omega), toInt_eq_signedOf, toNat_append_add]
  rfl

theorem lowNibble_toNat (b : Byte) : (b.extractLsb' 0 4).toNat = b.toNat % 16 := by
  simp [BitVec.extractLsb'_toNat]

theorem highNibble_toNat (b : Byte) : (b.extractLsb' 4 4).toNat = b.toNat / 16 := by
  have hb := b.isLt
  rw [BitVec.extractLsb'_toNat, Nat.shiftRight_eq_div_pow]
  omega

/-- Settles O17: each coefficient is a byte, a byte pair, or (H4 and H5) a byte above a nibble. -/
theorem coefficientsFromBytes : Obligations.CoefficientsFromBytes := by
  intro c h1 e u r
  have h4 : r.h4.toInt = signedOf 12 ((byteAt e 3).toNat * 16 + (byteAt e 4).toNat % 16) := by
    rw [← lowNibble_toNat]; exact sext12_toInt _ _
  have h5 : r.h5.toInt = signedOf 12 ((byteAt e 5).toNat * 16 + (byteAt e 4).toNat / 16) := by
    rw [← highNibble_toNat]; exact sext12_toInt _ _
  exact ⟨le16_toNat c 0, le16_toInt c 2, le16_toInt c 4, le16_toNat c 6, le16_toInt c 8, le16_toInt c 10, le16_toInt c 12,
    le16_toInt c 14, le16_toInt c 16, le16_toInt c 18, le16_toInt c 20, le16_toInt c 22, rfl, le16_toInt e 0, rfl, h4, h5,
    toInt_eq_signedOf _⟩

end Sys2Proof.Machine
end

section
/-! The configuration mux (41_config_mux R75-R85): fields of a register byte, bit by bit and as numbers; the two shapes all
eight commands have, a field read or a field write that finishes; and what a getter reads of a byte a setter wrote. -/

namespace Sys2Proof.Machine

/-! ### Fields of a register byte -/

/-- The mask has exactly the field's bits (R9). -/
theorem getLsbD_mask (f : Field) {k : Nat} (hk : k < 8) : f.mask.getLsbD k = decide (f.sh ≤ k ∧ k < f.sh + f.w) := by
  rw [Field.mask, BitVec.getLsbD_ofNat, Nat.testBit_mul_two_pow, Nat.testBit_two_pow_sub_one]
  grind

/-- A field write gives the field the value's bits and keeps every other bit (R9, R76). -/
theorem getLsbD_fieldInsert (f : Field) (old v : Byte) {k : Nat} (hk : k < 8) : (fieldInsert f old v).getLsbD k =
    if f.sh ≤ k ∧ k < f.sh + f.w then v.getLsbD (k - f.sh) else old.getLsbD k := by
  rw [fieldInsert, BitVec.getLsbD_or, BitVec.getLsbD_and, BitVec.getLsbD_and, BitVec.getLsbD_not,
    BitVec.getLsbD_shiftLeft, getLsbD_mask f hk]
  by_cases hin : f.sh ≤ k ∧ k < f.sh + f.w
  · have hsh : ¬ k < f.sh := by omega
    simp [hin, hk, hsh]
  · simp [hin, hk]

/-- Settles O18: what a field write does to each bit, for any field. -/
theorem fieldWritesKeepOtherBits : Obligations.FieldWritesKeepOtherBits := by
  intro f r sh w hf
  simp only [List.mem_cons, Prod.mk.injEq, List.not_mem_nil, or_false] at hf
  rcases hf with ⟨rfl, rfl, rfl, rfl⟩ | ⟨rfl, rfl, rfl, rfl⟩ | ⟨rfl, rfl, rfl, rfl⟩ | ⟨rfl, rfl, rfl, rfl⟩ |
    ⟨rfl, rfl, rfl, rfl⟩ | ⟨rfl, rfl, rfl, rfl⟩ <;> exact ⟨rfl, fun old v k => getLsbD_fieldInsert _ old v⟩

/-- A value that fits the field has no bit beyond the field's width. -/
theorem testBit_of_fits {f : Field} {v k : Nat} (hv : v < 2 ^ f.w) (hk : f.w ≤ k) : v.testBit k = false :=
  Nat.testBit_lt_two_pow (hv.trans_le (Nat.pow_le_pow_right (by decide) hk))

/-- The bits of a value that fits the field, shifted into place, are bits of the mask. -/
theorem shiftLeft_and_mask {f : Field} {v : Nat} (hv : v < 2 ^ f.w) :
    BitVec.ofNat 8 v <<< f.sh &&& f.mask = BitVec.ofNat 8 (v * 2 ^ f.sh) := by
  apply BitVec.eq_of_getLsbD_eq
  intro k hk
  rw [BitVec.getLsbD_and, getLsbD_mask f hk, BitVec.getLsbD_shiftLeft, BitVec.getLsbD_ofNat, BitVec.getLsbD_ofNat,
    Nat.testBit_mul_two_pow]
  by_cases hw : k < f.sh + f.w
  · grind
  · simp [testBit_of_fits hv (k := k - f.sh) (by omega)]

/-- The byte a field write gives for a value that fits the field (R9). -/
theorem fieldInsert_ofNat {f : Field} {v : Nat} (old : Byte) (hv : v < 2 ^ f.w) :
    fieldInsert f old (BitVec.ofNat 8 v) = (old &&& ~~~ f.mask) ||| BitVec.ofNat 8 (v * 2 ^ f.sh) := by
  rw [fieldInsert, shiftLeft_and_mask hv]

/-- A field as a number: the byte shifted and reduced (R9). -/
theorem toNat_fieldOf {f : Field} (v : Byte) (hw : f.w ≤ 8) : (fieldOf f v).toNat = v.toNat / 2 ^ f.sh % 2 ^ f.w := by
  have hpow : 2 ^ f.w ≤ 2 ^ 8 := Nat.pow_le_pow_right (by decide) hw
  have hmask : 2 ^ f.w - 1 < 2 ^ 8 := by omega
  rw [fieldOf, BitVec.toNat_and, BitVec.toNat_ushiftRight, BitVec.toNat_ofNat, Nat.mod_eq_of_lt hmask,
    Nat.and_two_pow_sub_one_eq_mod, Nat.shiftRight_eq_div_pow]

/-- A field zero-extended to a result register. -/
theorem setWidth_fieldOf {f : Field} (v : Byte) (hw : f.w ≤ 8) :
    (fieldOf f v).setWidth 32 = BitVec.ofNat 32 (v.toNat / 2 ^ f.sh % 2 ^ f.w) := by
  rw [← toNat_fieldOf v hw, BitVec.ofNat_toNat]

/-- The bits of a field (R9). -/
theorem getLsbD_fieldOf (f : Field) (v : Byte) {k : Nat} (hk : k < 8) :
    (fieldOf f v).getLsbD k = (decide (k < f.w) && v.getLsbD (f.sh + k)) := by
  rw [fieldOf, BitVec.getLsbD_and, BitVec.getLsbD_ushiftRight, BitVec.getLsbD_ofNat, Nat.testBit_two_pow_sub_one]
  simp [hk, Bool.and_comm]

/-- Reading a field of the byte a field write gave returns the value written. -/
theorem fieldOf_fieldInsert {f : Field} {v : Nat} (old : Byte) (hf : f.sh + f.w ≤ 8) (hv : v < 2 ^ f.w) :
    fieldOf f (fieldInsert f old (BitVec.ofNat 8 v)) = BitVec.ofNat 8 v := by
  apply BitVec.eq_of_getLsbD_eq
  intro k hk
  rw [getLsbD_fieldOf f _ hk]
  by_cases hw : k < f.w
  · rw [getLsbD_fieldInsert f old _ (by omega)]
    simp [hw]
  · simp [hw, testBit_of_fits hv (Nat.not_lt.mp hw), BitVec.getLsbD_ofNat]

/-- Bits cut out of a byte, zero-extended to a result register. -/
theorem setWidth_extractLsb' (v : Byte) (sh w : Nat) :
    (v.extractLsb' sh w).setWidth 32 = BitVec.ofNat 32 (v.toNat / 2 ^ sh % 2 ^ w) := by
  rw [← BitVec.ofNat_toNat, BitVec.extractLsb'_toNat, Nat.shiftRight_eq_div_pow]

/-- OSR_MULT as a table (R37). -/
theorem osrMult_eq_getD (c : BitVec 3) : osrMult c = [0, 1, 2, 4, 8, 16, 16, 16].getD c.toNat 0 := by
  obtain ⟨n, hn⟩ := c
  interval_cases n <;> rfl

/-! ### The command words -/

/-- A command word as its opcode and operands, each in its field (R65). -/
theorem encode_eq_or {i : Instr} {op a b : Nat} (hwf : i.wf) (hop : opcode i = op) (ha : operandA i = a)
    (hb : operandB i = b) :
    encode i = BitVec.ofNat 32 (op * 2 ^ 24) ||| BitVec.ofNat 32 a <<< 8 ||| BitVec.ofNat 32 b := by
  obtain ⟨-, -, hA, hB⟩ := fields_encode hwf
  have hop13 : op < 13 := by have := opcode_bounds i; omega
  have ha256 : a < 256 := ha ▸ hA ▸ BitVec.isLt _
  have hb256 : b < 256 := hb ▸ hB ▸ BitVec.isLt _
  have hlow : a <<< 8 + b < 2 ^ 24 := by rw [Nat.shiftLeft_eq]; omega
  have hsum : op * 2 ^ 24 ||| a <<< 8 ||| b = op * 2 ^ 24 + a * 2 ^ 8 + b := by
    rw [Nat.lor_assoc, ← Nat.shiftLeft_add_eq_or_of_lt (b := b) hb256, ← Nat.shiftLeft_eq,
      ← Nat.shiftLeft_add_eq_or_of_lt hlow, Nat.shiftLeft_eq, Nat.shiftLeft_eq, Nat.add_assoc]
  have hshift : BitVec.ofNat 32 a <<< 8 = BitVec.ofNat 32 (a <<< 8) := by
    apply BitVec.eq_of_toNat_eq
    rw [BitVec.toNat_shiftLeft, BitVec.toNat_ofNat, BitVec.toNat_ofNat, Nat.mod_eq_of_lt (a := a) (by omega)]
  apply BitVec.eq_of_toNat_eq
  rw [encode_toNat, hop, ha, hb, hshift, ← BitVec.ofNat_or, ← BitVec.ofNat_or, hsum, BitVec.toNat_ofNat]
  omega

/-- The word of a command with one operand. -/
theorem encode_eq_or_A {i : Instr} {op a : Nat} (hwf : i.wf) (hop : opcode i = op) (ha : operandA i = a)
    (hb : operandB i = 0) : encode i = BitVec.ofNat 32 (op * 2 ^ 24) ||| BitVec.ofNat 32 a <<< 8 :=
  (encode_eq_or hwf hop ha hb).trans BitVec.or_zero

/-! ### A field read or a field write, answered -/

/-- The result `x` of a command from `s` is its finish with `c` and `r`, by the transactions `evs`, with every engine
register kept. -/
def FinishesKept (s : State) (x : Result) (c : Code) (r : Word) (evs : List Event) (rest : List Input) : Prop :=
  ∃ t, x = .next t ∧ Finished s t c r 0 0 evs rest ∧ EngineKept s t

/-- Raising an outcome takes no input, performs no transaction and commits no engine register (R106). -/
theorem raise_finishesKept (c : Code) (s : State) : FinishesKept s (.next (raise c s)) c 0 [] s.inputs :=
  ⟨_, rfl, finish_finished _ _ _ _ rfl (List.append_nil _).symm ⟨rfl, rfl, rfl⟩, ⟨rfl, rfl, rfl, rfl, rfl, rfl⟩⟩

/-- The write of a field update of the byte `old` (R9): `v`, which fits the field, in its place, every other bit as read. -/
def fieldWriteEvent (f : Field) (v : Nat) (old : Byte) : Event :=
  .write f.reg ((old &&& ~~~ f.mask) ||| BitVec.ofNat 8 (v * 2 ^ f.sh))

section
variable {i : Instr} {f : Field} {s : State} {ack ack' : Bool} {b : Byte} {ws : List Byte} {rest : List Input} {v : Nat}

/-- A command that reads a field and finishes with `g` of it (R9). -/
theorem fieldGet_finishesKept (p : Pos) (g : Byte → Word) (hin : s.inputs = .sensor ack [b] :: rest) :
    FinishesKept s (fieldGet i p f (fun x t => .next (finish .ok (g x) 0 0 t)) s) .ok (g (fieldOf f b))
      [.read f.reg 1 [b] none] rest := by
  rw [fieldGet, memRead_answered i p f.reg 1 _ s hin rfl]
  exact ⟨_, rfl, finish_finished _ _ _ _ rfl rfl ⟨rfl, rfl, rfl⟩, ⟨rfl, rfl, rfl, rfl, rfl, rfl⟩⟩

/-- A getter finishes with the field's bits (R78, R82, R84). -/
theorem getField_finishesKept (hw : f.w ≤ 8) (hin : s.inputs = .sensor ack [b] :: rest) :
    FinishesKept s (getField i f s) .ok ((b.extractLsb' f.sh f.w).setWidth 32) [.read f.reg 1 [b] none] rest := by
  rw [setWidth_extractLsb', ← setWidth_fieldOf b hw]
  exact fieldGet_finishesKept .start (·.setWidth 32) hin

/-- A setter's read and write, both answered, and then what it does with the state they leave (R9). -/
theorem setField_answered {k : State → Result} (hv : v < 2 ^ f.w) (hpos : s.pos = .start)
    (hin : s.inputs = .sensor ack [b] :: .sensor ack' ws :: rest) :
    setField i f (BitVec.ofNat 8 v) k s =
      k { s with inputs := rest, history := s.history ++ [.read f.reg 1 [b] none, fieldWriteEvent f v b] } := by
  rw [setField_start (by simp [hpos]), fieldSet_answered i .start .fieldWrite f _ k s hin, fieldInsert_ofNat b hv]
  simp [record, fieldWriteEvent]

/-- A setter that commits no engine register finishes after its read and its write (R80, R83, R85). -/
theorem setField_finishesKept (r : Word) (hv : v < 2 ^ f.w) (hpos : s.pos = .start)
    (hin : s.inputs = .sensor ack [b] :: .sensor ack' ws :: rest) :
    FinishesKept s (setField i f (BitVec.ofNat 8 v) (fun t => .next (finish .ok r 0 0 t)) s) .ok r
      [.read f.reg 1 [b] none, fieldWriteEvent f v b] rest := by
  rw [setField_answered hv hpos hin]
  exact ⟨_, rfl, finish_finished _ _ _ _ rfl rfl ⟨rfl, rfl, rfl⟩, ⟨rfl, rfl, rfl, rfl, rfl, rfl⟩⟩

end

/-! ### Each command as a field read or a field write -/

theorem setWidth_modeOperand (m a : Nat) : (modeOperand a).setWidth m = BitVec.ofNat m (a % 4) := by
  rw [modeOperand, ← BitVec.ofNat_toNat, BitVec.toNat_ofNat]

theorem setWidth_codeOperand (m a : Nat) : (codeOperand a).setWidth m = BitVec.ofNat m (a % 8) := by
  rw [codeOperand, ← BitVec.ofNat_toNat, BitVec.toNat_ofNat]

theorem exec_modeSet (a : Nat) (s : State) : exec (.modeSet a) s =
    setField (.modeSet a) modeField (BitVec.ofNat 8 (a % 4)) (fun t =>
      .next (finish .ok (BitVec.ofNat 32 (a % 4)) 0 0 { t with smode := modeOperand a })) s := by
  rw [← setWidth_modeOperand, ← setWidth_modeOperand]
  rfl

theorem exec_iirSet (a : Nat) (s : State) : exec (.iirSet a) s =
    setField (.iirSet a) filterField (BitVec.ofNat 8 (a % 8)) (fun t =>
      .next (finish .ok (BitVec.ofNat 32 (a % 8)) 0 0 t)) s := by
  rw [← setWidth_codeOperand, ← setWidth_codeOperand]
  rfl

theorem exec_tsbSet (a : Nat) (s : State) : exec (.tsbSet a) s =
    setField (.tsbSet a) tsbField (BitVec.ofNat 8 (a % 8)) (fun t =>
      .next (finish .ok (BitVec.ofNat 32 (a % 8)) 0 0 t)) s := by
  rw [← setWidth_codeOperand, ← setWidth_codeOperand]
  rfl

/-- OSR.SET with legal operands is a field write of the level (R80). -/
theorem exec_osrSet_legal {a b : Nat} {f : Field} (hf : sensorField a = some f) (hb : b ≤ 5) (s : State) :
    exec (.osrSet a b) s =
      setField (.osrSet a b) f (BitVec.ofNat 8 b) (fun t => .next (finish .ok 1 0 0 t)) s := by
  simp [exec, execOsrSet, hf, levelValid, hb]

/-- Sensors above 2 select no field (R75). -/
theorem sensorField_eq_none {a : Nat} (ha : 2 < a) : sensorField a = none := by
  match a, ha with
  | a + 3, _ => rfl

/-- OSR.SET with any other operands is raised FAIL_INVALID (R77, R80). -/
theorem exec_osrSet_illegal {a b : Nat} (h : 2 < a ∨ 5 < b) (s : State) :
    exec (.osrSet a b) s = .next (raise .failInvalid s) := by
  rcases h with ha | hb
  · simp [exec, execOsrSet, sensorField_eq_none ha]
  · simp [exec, execOsrSet, levelValid, hb]

/-- OSR.GET with a legal sensor is a field read (R81). -/
theorem exec_osrGet_legal {a : Nat} {f : Field} (b : Nat) (hf : sensorField a = some f) (s : State) :
    exec (.osrGet a b) s = fieldGet (.osrGet a b) .start f (fun v t => .next (finish .ok
      (if wantsMultiplier b then BitVec.ofNat 32 (osrMult (v.setWidth 3)) else v.setWidth 32) 0 0 t)) s := by
  simp [exec, execOsrGet, hf]

/-- OSR.GET of the raw code is a getter of the sensor's field (R81). -/
theorem exec_osrGet_raw {a : Nat} {f : Field} (hf : sensorField a = some f) (s : State) :
    exec (.osrGet a 0) s = getField (.osrGet a 0) f s := by
  rw [exec_osrGet_legal 0 hf]
  rfl

/-- OSR.GET with any other sensor is raised FAIL_INVALID (R77, R81). -/
theorem exec_osrGet_illegal {a : Nat} (b : Nat) (ha : 2 < a) (s : State) :
    exec (.osrGet a b) s = .next (raise .failInvalid s) := by
  simp [exec, execOsrGet, sensorField_eq_none ha]

/-- The field each sensor selects, with the bits of its register outside the field (R75). -/
theorem sensorField_of_row {a : Nat} {r keep : Byte} {sh : Nat}
    (h : (a, r, keep, sh) ∈ [(0, 0xF4#8, 0x1F#8, 5), (1, 0xF2#8, 0xF8#8, 0), (2, 0xF4#8, 0xE3#8, 2)]) :
    sensorField a = some ⟨r, sh, 3⟩ ∧ ~~~ (Field.mask ⟨r, sh, 3⟩) = keep := by
  simp only [List.mem_cons, Prod.mk.injEq, List.not_mem_nil, or_false] at h
  rcases h with ⟨rfl, rfl, rfl, rfl⟩ | ⟨rfl, rfl, rfl, rfl⟩ | ⟨rfl, rfl, rfl, rfl⟩ <;> exact ⟨rfl, by decide⟩

/-! ### The obligations on each command -/

/-- Settles O19: MODE.GET is a getter of the mode field. -/
theorem modeGetReturnsModeField : Obligations.ModeGetReturnsModeField :=
  ⟨by decide, fun _ _ _ _ _ hin => getField_finishesKept (f := modeField) (by decide) hin⟩

/-- Settles O20: MODE.SET is a setter of the mode field that also commits SMODE at its finish. -/
theorem modeSetWritesAndRecords : Obligations.ModeSetWritesAndRecords := by
  constructor
  · intro a ha
    exact encode_eq_or_A (i := .modeSet a) (op := 4) ha rfl rfl rfl
  · intro s a ack ack' old ws rest hpos hin
    have hv : a % 4 < 2 ^ modeField.w := Nat.mod_lt _ (by decide)
    have hbyte : fieldWriteEvent modeField (a % 4) old = .write 0xF4 ((old &&& 0xFC) ||| BitVec.ofNat 8 (a % 4)) := by
      rw [fieldWriteEvent, show modeField.sh = 0 from rfl, Nat.pow_zero, Nat.mul_one]
      rfl
    rw [exec_modeSet, setField_answered hv hpos hin, hbyte]
    exact ⟨_, rfl, finish_finished _ _ _ _ rfl rfl ⟨rfl, rfl, rfl⟩, rfl, ⟨rfl, rfl, rfl, rfl, rfl, rfl⟩⟩

/-- Settles O21: OSR.SET is a setter of the sensor's field, or is raised before any transaction. -/
theorem osrSetValidatesAndWritesLevel : Obligations.OsrSetValidatesAndWritesLevel := by
  refine ⟨fun a b ha hb => encode_eq_or (i := .osrSet a b) (op := 5) ⟨ha, hb⟩ rfl rfl rfl, ?_, ?_⟩
  · intro a r keep sh hrow s b ack ack' old ws rest hb hpos hin
    obtain ⟨hf, rfl⟩ := sensorField_of_row hrow
    rw [exec_osrSet_legal hf hb]
    exact setField_finishesKept 1 (show b < 2 ^ 3 by omega) hpos hin
  · intro s a b hbad
    rw [exec_osrSet_illegal hbad]
    exact raise_finishesKept _ s

/-- What OSR.GET makes of its field, as a number (R37, R81). -/
theorem osrGet_result (r : Byte) (sh b : Nat) (v : Byte) :
    (if wantsMultiplier b then BitVec.ofNat 32 (osrMult ((fieldOf ⟨r, sh, 3⟩ v).setWidth 3))
      else (fieldOf ⟨r, sh, 3⟩ v).setWidth 32) =
    BitVec.ofNat 32 (if b = 0 then v.toNat / 2 ^ sh % 8
      else [0, 1, 2, 4, 8, 16, 16, 16].getD (v.toNat / 2 ^ sh % 8) 0) := by
  have hcode : (fieldOf ⟨r, sh, 3⟩ v).toNat = v.toNat / 2 ^ sh % 8 := toNat_fieldOf v (show 3 ≤ 8 by decide)
  by_cases hb : b = 0
  · rw [if_neg (by simp [wantsMultiplier, hb]), if_pos hb, ← hcode, BitVec.ofNat_toNat]
  · rw [if_pos (by simp [wantsMultiplier, hb]), if_neg hb, osrMult_eq_getD, BitVec.toNat_setWidth, hcode, Nat.mod_mod]

/-- Settles O22: OSR.GET is a read of the sensor's field, or is raised before any transaction. -/
theorem osrGetReturnsCodeOrMultiplier : Obligations.OsrGetReturnsCodeOrMultiplier := by
  refine ⟨fun a b ha hb => encode_eq_or (i := .osrGet a b) (op := 6) ⟨ha, hb⟩ rfl rfl rfl, ?_, ?_⟩
  · intro a r sh hrow s b ack v rest hpos hin
    have hf : sensorField a = some ⟨r, sh, 3⟩ := by
      simp only [List.mem_cons, Prod.mk.injEq, List.not_mem_nil, or_false] at hrow
      rcases hrow with ⟨rfl, rfl, rfl⟩ | ⟨rfl, rfl, rfl⟩ | ⟨rfl, rfl, rfl⟩ <;> rfl
    rw [exec_osrGet_legal b hf, ← osrGet_result r]
    exact fieldGet_finishesKept .start _ hin
  · intro s a b ha
    rw [exec_osrGet_illegal b ha]
    exact raise_finishesKept _ s

/-- Settles O23: IIR.GET and TSB.GET are getters of their fields. -/
theorem configGettersReturnCodes : Obligations.ConfigGettersReturnCodes := by
  refine ⟨by decide, by decide, fun i sh hi s ack b rest _ hin => ?_⟩
  simp only [List.mem_cons, Prod.mk.injEq, List.not_mem_nil, or_false] at hi
  rcases hi with ⟨rfl, rfl⟩ | ⟨rfl, rfl⟩
  · exact getField_finishesKept (f := filterField) (by decide) hin
  · exact getField_finishesKept (f := tsbField) (by decide) hin

/-- Settles O24: IIR.SET and TSB.SET are setters of their fields. -/
theorem configSettersWriteCodes : Obligations.ConfigSettersWriteCodes := by
  constructor
  · intro a ha
    exact ⟨encode_eq_or_A (i := .iirSet a) (op := 8) ha rfl rfl rfl,
      encode_eq_or_A (i := .tsbSet a) (op := 10) ha rfl rfl rfl⟩
  · intro i keep sh hi s a ack ack' old ws rest hpos hin
    have hv : a % 8 < 2 ^ 3 := Nat.mod_lt _ (by decide)
    rcases hi with ⟨rfl, rfl, rfl⟩ | ⟨rfl, rfl, rfl⟩
    · rw [exec_iirSet]
      exact setField_finishesKept (f := filterField) _ hv hpos hin
    · rw [exec_tsbSet]
      exact setField_finishesKept (f := tsbField) _ hv hpos hin

/-! ### Set, then get -/

/-- If the result is a finish, the last transaction before it wrote `v` into the field of some byte. -/
def WritesLast (f : Field) (v : Byte) (x : Result) : Prop :=
  ∀ t, x = .next t → t.seq = .idle → ∃ old before fin, t.history = before ++ [.write f.reg (fieldInsert f old v), fin]

theorem waitAt_writesLast (f : Field) (v : Byte) (i : Instr) (p : Pos) (s : State) :
    WritesLast f v (.next (waitAt i p s)) := by
  intro t ht hidle
  cases ht
  cases hidle

section
variable {i : Instr} {f : Field} {v : Byte} {r : Word} {g : State → State}

theorem fieldPut_writesLast (hg : ∀ u, (g u).history = u.history) (q : Byte → Pos) (old : Byte) (s : State) :
    WritesLast f v (fieldPut i q f v old (fun u => .next (finish .ok r 0 0 (g u))) s) := by
  refine fieldPut_induct i q f v old _ s (fun _ _ _ => waitAt_writesLast _ _ _ _ _) (fun ack bs rest _ t ht _ => ?_)
  cases ht
  exact ⟨old, s.history, _, by rw [finish_history, hg, record_history, List.append_assoc]; rfl⟩

/-- A setter that finishes has written, whether it began with its read or waited for its write. -/
theorem setField_writesLast (hg : ∀ u, (g u).history = u.history) (s : State) :
    WritesLast f v (setField i f v (fun u => .next (finish .ok r 0 0 (g u))) s) := by
  by_cases hpos : ∃ old, s.pos = .fieldWrite old
  · obtain ⟨old, hold⟩ := hpos
    rw [setField_fieldWrite hold]
    exact fieldPut_writesLast hg _ old s
  · rw [setField_start (fun old hold => hpos ⟨old, hold⟩)]
    exact memRead_induct i .start f.reg 1 _ s (fun _ _ _ => waitAt_writesLast _ _ _ _ _)
      (fun _ _ _ _ _ => fieldPut_writesLast hg _ _ _)

end

/-- A getter answered with the byte its setter wrote finishes with the value set, if the field has room for it. -/
theorem getField_of_writesLast {get : Instr} {f : Field} {v : Nat} {x : Result} {t u : State} {r kept : Byte}
    {before : List Event} {fin : Event} {ack : Bool} {rest : List Input} (hfits : f.sh + f.w ≤ 8) (hv : v < 2 ^ f.w)
    (hwrites : WritesLast f (BitVec.ofNat 8 v) x) (hset : x = .next t) (hhist : t.history = before ++ [.write r kept, fin])
    (hidle : t.seq = .idle) (hin : u.inputs = .sensor ack [kept] :: rest) :
    ∃ t', getField get f u = .next t' ∧ t'.code = .ok ∧ t'.res0 = BitVec.ofNat 32 v := by
  obtain ⟨old, before', fin', hhist'⟩ := hwrites t hset hidle
  have hkept : kept = fieldInsert f old (BitVec.ofNat 8 v) := by
    have hlast := List.append_inj_right' (hhist.symm.trans hhist') rfl
    cases hlast
    rfl
  have hv8 : v < 2 ^ 8 := hv.trans_le (Nat.pow_le_pow_right (by decide) (by omega))
  obtain ⟨t', ht', hfin, -⟩ := fieldGet_finishesKept (i := get) (f := f) .start (·.setWidth 32) hin
  refine ⟨t', ht', hfin.code, hfin.res0.trans ?_⟩
  rw [hkept, fieldOf_fieldInsert old hfits hv, BitVec.setWidth_ofNat_of_le_of_lt (by decide) hv8]

/-- A legal sensor selects a 3-bit field that lies within its register (R75). -/
theorem exists_sensorField {a : Nat} (ha : a ≤ 2) : ∃ f, sensorField a = some f ∧ f.w = 3 ∧ f.sh + f.w ≤ 8 := by
  interval_cases a <;> exact ⟨_, rfl, by decide⟩

theorem modeSet_writesLast (a : Nat) (s : State) :
    WritesLast modeField (BitVec.ofNat 8 (a % 4)) (exec (.modeSet a) s) := by
  rw [exec_modeSet]
  exact setField_writesLast (g := fun u => { u with smode := modeOperand a }) (fun _ => rfl) s

theorem osrSet_writesLast {a b : Nat} {f : Field} (hf : sensorField a = some f) (hb : b ≤ 5) (s : State) :
    WritesLast f (BitVec.ofNat 8 b) (exec (.osrSet a b) s) := by
  rw [exec_osrSet_legal hf hb]
  exact setField_writesLast (fun _ => rfl) s

theorem iirSet_writesLast (a : Nat) (s : State) :
    WritesLast filterField (BitVec.ofNat 8 (a % 8)) (exec (.iirSet a) s) := by
  rw [exec_iirSet]
  exact setField_writesLast (fun _ => rfl) s

theorem tsbSet_writesLast (a : Nat) (s : State) :
    WritesLast tsbField (BitVec.ofNat 8 (a % 8)) (exec (.tsbSet a) s) := by
  rw [exec_tsbSet]
  exact setField_writesLast (fun _ => rfl) s

/-- Settles O25: each setter has last written its value into some byte, and reading the field of that byte gives it back. -/
theorem setThenGetReturnsTheSetting : Obligations.SetThenGetReturnsTheSetting := by
  intro set get v hcmd s t u r kept before fin ack rest hset hhist hidle _ _ hin
  rcases hcmd with ⟨a, b, ha, hb, rfl, rfl, rfl⟩ | ⟨a, rfl, rfl, rfl⟩ | ⟨a, rfl, rfl, rfl⟩ | ⟨a, rfl, rfl, rfl⟩
  · obtain ⟨f, hf, hw, hfits⟩ := exists_sensorField ha
    have hv : v < 2 ^ f.w := by rw [hw]; omega
    rw [exec_osrGet_raw hf]
    exact getField_of_writesLast hfits hv (osrSet_writesLast hf hb s) hset hhist hidle hin
  · have hv : a % 4 < 2 ^ modeField.w := Nat.mod_lt a (by decide)
    exact getField_of_writesLast (by decide) hv (modeSet_writesLast a s) hset hhist hidle hin
  · have hv : a % 8 < 2 ^ filterField.w := Nat.mod_lt a (by decide)
    exact getField_of_writesLast (by decide) hv (iirSet_writesLast a s) hset hhist hidle hin
  · have hv : a % 8 < 2 ^ tsbField.w := Nat.mod_lt a (by decide)
    exact getField_of_writesLast (by decide) hv (tsbSet_writesLast a s) hset hhist hidle hin

end Sys2Proof.Machine
end

section
/-! READ as a whole (42_compensation R86-R89): its re-trigger, any number of busy polls, and how the run ends: with the
reading, with TIMEOUT, or waiting for ever; and that no command stops with OVF_MODEL = wrap (R97). -/

namespace Sys2Proof.Machine

/-! ### No command stops -/

/-- Where OVF_MODEL is not `fault`, every end of a command's run is a next state. -/
theorem Ends.next {i : Instr} {ok : Pos → Prop} {u : State} {r : Result} (h : Ends i ok u r)
    (hovf : u.cfg.ovf ≠ .fault) : ∃ t, r = .next t := by
  cases h with
  | overflow _ ho => exact absurd ho hovf
  | _ => exact ⟨_, rfl⟩

/-- Settles O53: the only end that is no next state is READ's stop with OVF_MODEL = fault. -/
theorem commandsNeverStop : Obligations.CommandsNeverStop := by
  intro i s hovf
  obtain ⟨u, hran, hends⟩ := exec_ends i s
  exact hends.next (by rw [hran.edges.cfg, hovf]; decide)

/-! ### A run that has performed some transactions -/

/-- `s` after the transactions `evs`, with the inputs `rest` still to come. -/
def after (evs : List Event) (rest : List Input) (s : State) : State :=
  { s with inputs := rest, history := s.history ++ evs }

@[simp] theorem after_inputs (evs : List Event) (rest : List Input) (s : State) : (after evs rest s).inputs = rest := rfl
@[simp] theorem after_cfg (evs : List Event) (rest : List Input) (s : State) : (after evs rest s).cfg = s.cfg := rfl

@[simp] theorem after_after (evs evs' : List Event) (rest rest' : List Input) (s : State) :
    after evs' rest' (after evs rest s) = after (evs ++ evs') rest' s := by
  simp [after]

theorem after_nil {s : State} {rest : List Input} (hin : s.inputs = rest) : after [] rest s = s := by
  simp [after, ← hin]

/-! ### The re-trigger -/

section
variable {s : State} {ack : Bool} {b : Byte} {rest : List Input}

/-- A field is 0 exactly when its bits are. -/
theorem fieldOf_eq_zero_iff {f : Field} (v : Byte) (hw : f.w ≤ 8) : fieldOf f v = 0 ↔ v.extractLsb' f.sh f.w = 0 := by
  have hnat : (fieldOf f v).toNat = (v.extractLsb' f.sh f.w).toNat := by
    rw [toNat_fieldOf v hw, BitVec.extractLsb'_toNat, Nat.shiftRight_eq_div_pow]
  rw [← BitVec.toNat_inj, ← BitVec.toNat_inj, hnat]
  rfl

/-- The byte MODE.SET and the re-trigger write (R79, R88). -/
theorem fieldInsert_modeField (old : Byte) (m : BitVec 2) :
    fieldInsert modeField old (m.setWidth 8) = (old &&& 0xFC) ||| m.setWidth 8 := by
  have hm : m.toNat < 2 ^ modeField.w := m.isLt
  rw [← BitVec.ofNat_toNat, fieldInsert_ofNat old hm, show modeField.sh = 0 from rfl, Nat.pow_zero, Nat.mul_one]
  rfl

/-- The forced-mode codes (R88). -/
theorem isForced_iff (m : BitVec 2) : isForced m = true ↔ m = 1 ∨ m = 2 := by
  simp [isForced]

/-- A field read that is answered goes on with the field (R9). -/
theorem fieldGet_answered {i : Instr} {p : Pos} {f : Field} {k : Byte → State → Result}
    (hin : s.inputs = .sensor ack [b] :: rest) :
    fieldGet i p f k s = k (fieldOf f b) (after [.read f.reg 1 [b] none] rest s) :=
  memRead_answered i p f.reg 1 _ s hin rfl

/-- Whatever its case, the re-trigger performs its transactions and goes on to the first poll. -/
theorem exec_read_reTrigger {answers : List Input} {evs : List Event} (hpos : s.pos = .start)
    (htrig : ReTrigger s answers evs) (hin : s.inputs = answers ++ rest) : exec .read s = readPoll 0 (after evs rest s) := by
  have hstart : exec .read s = readStart s := by simp [exec, execRead, hpos]
  rw [hstart]
  obtain ⟨h1, h2, rfl, rfl⟩ | ⟨hm, ack, b, hb, rfl, rfl⟩ | ⟨hm, ack, b, ack', old, ack'', ws, hb, rfl, rfl⟩ := htrig
  · rw [after_nil (rest := rest) hin]
    exact readStart_unforced (Bool.eq_false_iff.mpr (fun h => ((isForced_iff _).mp h).elim h1 h2))
  · rw [readStart_forced rfl ((isForced_iff _).mpr hm), fieldGet_answered hin]
    exact if_neg (fun h => hb ((fieldOf_eq_zero_iff b (by decide)).mp h))
  · rw [readStart_forced rfl ((isForced_iff _).mpr hm),
      fieldGet_answered (rest := .sensor ack' [old] :: .sensor ack'' ws :: rest) hin]
    refine (if_pos ((fieldOf_eq_zero_iff b (by decide)).mpr hb)).trans ?_
    rw [fieldSet_answered _ _ _ _ _ _ _ (after_inputs ..), fieldInsert_modeField]
    simp [record, after, modeField]

/-! ### The polls -/

/-- A poll with both bits 0 goes on to the burst. -/
theorem readPoll_clear {n : Nat} (hin : s.inputs = .sensor ack [b] :: rest) (hb : b &&& busyMask = 0) :
    readPoll n s = readBurst (after [.read 0xF3 1 [b] none] rest s) :=
  pollStatus_clear _ n s hin hb

/-- The busy poll that reaches a finite POLL_LIMIT ends READ. -/
theorem readPoll_exhausted {n : Nat} (hin : s.inputs = .sensor ack [b] :: rest) (hb : b &&& busyMask ≠ 0)
    (hx : pollsExhausted s.cfg (n + 1) = true) :
    readPoll n s = .next (raise .timeout (after [.read 0xF3 1 [b] none] rest s)) :=
  pollStatus_exhausted _ n s hin hb hx

/-- Any other busy poll counts. -/
theorem readPoll_busy {n : Nat} (hin : s.inputs = .sensor ack [b] :: rest) (hb : b &&& busyMask ≠ 0)
    (hx : pollsExhausted s.cfg (n + 1) = false) :
    readPoll n s = readPoll (n + 1) (after [.read 0xF3 1 [b] none] rest s) := by
  rw [readPoll, hin]
  exact pollStatus_busy rest.length n s hin hb hx

end

/-- No POLL_LIMIT, or one not reached yet (R89). -/
theorem pollsExhausted_eq_false {cfg : Config} {n : Nat} (h : ∀ k, cfg.pollLimit = some k → n < k) :
    pollsExhausted cfg n = false := by
  unfold pollsExhausted
  split
  · rfl
  · exact decide_eq_false (Nat.not_le.mpr (h _ ‹_›))

/-- A run of busy polls that does not reach POLL_LIMIT is performed and counted, by induction on the polls. -/
theorem readPoll_busyRun {polls : List (Bool × Byte)} (hbusy : ∀ q ∈ polls, q.2 &&& busyMask ≠ 0) {n : Nat} {s : State}
    {rest : List Input} (hlimit : ∀ k, s.cfg.pollLimit = some k → n + polls.length < k)
    (hin : s.inputs = pollAnswers polls ++ rest) :
    readPoll n s = readPoll (n + polls.length) (after (pollEvents polls) rest s) := by
  induction polls generalizing n s with
  | nil => exact congrArg (readPoll n) (after_nil hin).symm
  | cons q polls ih =>
    obtain ⟨hq, hpolls⟩ := List.forall_mem_cons.mp hbusy
    have hcount : n + (q :: polls).length = n + 1 + polls.length := by rw [List.length_cons]; omega
    rw [hcount] at hlimit ⊢
    have hx : pollsExhausted s.cfg (n + 1) = false :=
      pollsExhausted_eq_false (fun k hk => (Nat.le_add_right _ _).trans_lt (hlimit k hk))
    rw [readPoll_busy (rest := pollAnswers polls ++ rest) hin hq hx, ih hpolls (by simpa using hlimit) (after_inputs ..),
      after_after]
    rfl

/-- READ from its first transaction, past its re-trigger and a run of busy polls (R86, R88, R89). -/
theorem exec_read_polling {s : State} {trig rest : List Input} {trigEvs : List Event} {polls : List (Bool × Byte)}
    (hpos : s.pos = .start) (htrig : ReTrigger s trig trigEvs) (hbusy : ∀ q ∈ polls, q.2 &&& busyMask ≠ 0)
    (hlimit : ∀ k, s.cfg.pollLimit = some k → polls.length < k) (hin : s.inputs = trig ++ pollAnswers polls ++ rest) :
    exec .read s = readPoll polls.length (after (trigEvs ++ pollEvents polls) rest s) := by
  rw [exec_read_reTrigger hpos htrig (hin.trans (List.append_assoc ..)),
    readPoll_busyRun hbusy (by simpa using hlimit) (after_inputs ..), after_after, Nat.zero_add]

/-! ### How the run ends -/

/-- Settles O28: past the busy polls the clear poll, then the burst, then the compensation, which commits the reading. -/
theorem readDeliversReading : Obligations.ReadDeliversReading := by
  intro s trig trigEvs polls ack ack' st d rest hpos hovf htrig hbusy hlimit hst hd hin
  rw [exec_read_polling hpos htrig hbusy hlimit hin, readPoll_clear (after_inputs ..) hst, after_after, readBurst,
    memRead_answered _ _ _ _ _ _ (after_inputs ..) hd, compensate_commits (by simp [hovf])]
  refine ⟨_, rfl, rfl, rfl, rfl, rfl, finish_finished _ _ _ _ rfl ?_ ⟨rfl, rfl, rfl⟩, rfl, rfl⟩
  simp [after]

/-- Settles O29: all polls but the last are a run below the limit, and the last one reaches it. -/
theorem readTimesOut : Obligations.ReadTimesOut := by
  intro s k trig trigEvs polls rest hpos htrig hlimit hk hlen hbusy hin
  obtain rfl | ⟨polls, ⟨ack, b⟩, rfl⟩ := List.eq_nil_or_concat' polls
  · rw [List.length_nil] at hlen
    omega
  · rw [List.length_append, List.length_singleton] at hlen
    have hx : pollsExhausted s.cfg (polls.length + 1) = true := by simp [pollsExhausted, hlimit, hlen]
    have hbelow : ∀ k', s.cfg.pollLimit = some k' → polls.length < k' := by
      intro k' hk'
      cases hlimit.symm.trans hk'
      omega
    have hin' : s.inputs = trig ++ pollAnswers polls ++ .sensor ack [b] :: rest := by rw [hin]; simp [pollAnswers]
    rw [exec_read_polling hpos htrig (fun q hq => hbusy q (by simp [hq])) hbelow hin',
      readPoll_exhausted (after_inputs ..) (hbusy (ack, b) (by simp)) hx, after_after]
    exact ⟨_, rfl, finish_finished _ _ _ _ rfl (by simp [after, pollEvents]) ⟨rfl, rfl, rfl⟩,
      ⟨rfl, rfl, rfl, rfl, rfl, rfl⟩⟩

/-- Settles O30: no poll reaches a limit, and with the answers used up READ waits for its next poll. -/
theorem readPollsForEver : Obligations.ReadPollsForEver := by
  intro s trig trigEvs polls hpos htrig hlimit hbusy hin
  rw [exec_read_polling (rest := []) hpos htrig hbusy (by simp [hlimit]) (by simpa using hin), readPoll,
    pollStatus_waits _ _ _ (by simp)]
  exact ⟨_, rfl, rfl, rfl, (List.append_assoc ..).symm, ⟨rfl, rfl, rfl, rfl, rfl, rfl⟩, ⟨rfl, rfl, rfl, rfl⟩, ⟨rfl, rfl, rfl⟩,
    unansweredTransactionHangs _ .read _ rfl rfl⟩

end Sys2Proof.Machine
end

section
/-! The compensation datapath (42_compensation R90-R98) on integers: what each operation of int32 and int64 arithmetic is
as a number, so that the datapath is the spec's rules operation by operation, and where no operation leaves its width it is
the reference. -/

namespace Sys2Proof.Machine

/-! ### The raw values of a burst -/

/-- A byte shifted into place in a 32-bit word loses no bit. -/
theorem toNat_setWidth_shiftLeft (b : Byte) {n : Nat} (hn : n ≤ 24) :
    ((b.setWidth 32) <<< n).toNat = b.toNat <<< n := by
  have hb : b.toNat * 2 ^ n < 2 ^ 8 * 2 ^ 24 :=
    Nat.mul_lt_mul_of_lt_of_le b.isLt (Nat.pow_le_pow_right (by decide) hn) (by decide)
  rw [BitVec.toNat_shiftLeft, BitVec.toNat_setWidth_of_le (by decide), Nat.mod_eq_of_lt]
  rwa [Nat.shiftLeft_eq]

/-- Bytes shifted into place do not overlap, so joining them is adding them (R90). -/
theorem raw20_toNat (b0 b1 b2 : Byte) :
    (raw20 b0 b1 b2).toNat = b0.toNat * 4096 + b1.toNat * 16 + b2.toNat / 16 := by
  have h1 := b1.isLt
  have h2 : b2.toNat >>> 4 < 2 ^ 4 := by have := b2.isLt; omega
  have hlow : b1.toNat <<< 4 + b2.toNat >>> 4 < 2 ^ 12 := by omega
  rw [raw20, BitVec.toNat_or, BitVec.toNat_or, BitVec.toNat_ushiftRight, toNat_setWidth_shiftLeft b0 (by decide),
    toNat_setWidth_shiftLeft b1 (by decide), BitVec.toNat_setWidth_of_le (by decide), Nat.lor_assoc,
    ← Nat.shiftLeft_add_eq_or_of_lt h2, ← Nat.shiftLeft_add_eq_or_of_lt hlow]
  omega

/-- Two bytes joined (R90). -/
theorem raw16_toNat (b0 b1 : Byte) : (raw16 b0 b1).toNat = b0.toNat * 256 + b1.toNat := by
  rw [raw16, BitVec.toNat_or, toNat_setWidth_shiftLeft b0 (by decide), BitVec.toNat_setWidth_of_le (by decide),
    ← Nat.shiftLeft_add_eq_or_of_lt b1.isLt, Nat.shiftLeft_eq]

/-- Settles O33: each raw value is made of its own bytes of the burst. -/
theorem rawValuesFromBurst : Obligations.RawValuesFromBurst :=
  fun _ => ⟨raw20_toNat _ _ _, raw20_toNat _ _ _, raw16_toNat _ _⟩

/-! ### The operations of R7 as numbers -/

/-- `wrap32` and `wrap64` are the library's balanced remainder, in which it states the arithmetic of vectors. -/
theorem wrap32_eq_bmod (x : Int) : wrap32 x = x.bmod (2 ^ 32) := by
  rw [wrap32, Int.bmod_def]
  omega

theorem wrap64_eq_bmod (x : Int) : wrap64 x = x.bmod (2 ^ 64) := by
  rw [wrap64, Int.bmod_def]
  omega

/-- `>>` is the floor of a division by a power of two. -/
theorem toInt_sshiftRight_eq_div {w : Nat} (x : BitVec w) (n : Nat) : (x.sshiftRight n).toInt = x.toInt / 2 ^ n := by
  rw [BitVec.toInt_sshiftRight, Int.shiftRight_eq_div_pow, Nat.cast_pow, Nat.cast_ofNat]

/-- `<<` is a multiplication by a power of two, reduced. -/
theorem toInt_shiftLeft_eq_bmod {w : Nat} (x : BitVec w) (n : Nat) :
    (x <<< n).toInt = (x.toInt * 2 ^ n).bmod (2 ^ w) := by
  rw [BitVec.toInt_shiftLeft, BitVec.toInt_eq_toNat_bmod x, Int.bmod_mul_bmod, Nat.shiftLeft_eq, Nat.cast_mul,
    Nat.cast_pow, Nat.cast_ofNat]

/-- An unsigned coefficient enters as the number it stands for. -/
theorem toInt_setWidth_of_lt {n w : Nat} (h : n < w) (x : BitVec n) : (x.setWidth w).toInt = x.toNat := by
  have hx : 2 * x.toNat < 2 ^ w := by
    have hle := Nat.pow_le_pow_right (n := 2) (by decide) h
    have := x.isLt
    omega
  rw [BitVec.toInt_eq_toNat_of_lt] <;> rw [BitVec.toNat_setWidth_of_le h.le]
  exact hx

/-- Reducing an int64 value to 32 bits (R94). -/
theorem toInt_setWidth32 (x : DWord) : (x.setWidth 32).toInt = wrap32 x.toInt := by
  rw [wrap32_eq_bmod, BitVec.toInt_setWidth, BitVec.toInt_eq_toNat_bmod x, Int.bmod_bmod_of_dvd (by decide)]

/-! ### Each rule, operation by operation

The operations are rewritten as above; `rfl` then evaluates the rules' constants. -/

/-- The t_fine of R91. -/
theorem fineTemp_toInt (c : Cal) (adc : Word) :
    let t1 : Int := c.t1.toNat
    let d := wrap32 (adc.toInt / 2 ^ 4 - t1)
    let var1 := wrap32 (wrap32 (adc.toInt / 2 ^ 3 - wrap32 (t1 * 2)) * c.t2.toInt) / 2 ^ 11
    let var2 := wrap32 (wrap32 (d * d) / 2 ^ 12 * c.t3.toInt) / 2 ^ 14
    (fineTemp c adc).toInt = wrap32 (var1 + var2) := by
  simp only [fineTemp, wrap32_eq_bmod, BitVec.toInt_add, BitVec.toInt_sub, BitVec.toInt_mul, toInt_shiftLeft_eq_bmod,
    toInt_sshiftRight_eq_div, toInt_setWidth_of_lt (show 16 < 32 by decide),
    BitVec.toInt_signExtend_of_le (show 16 ≤ 32 by decide), pow_one]

/-- The T of R91. -/
theorem tempOut_toInt (tFine : Word) : (tempOut tFine).toInt = wrap32 (wrap32 (tFine.toInt * 5) + 128) / 2 ^ 8 := by
  simp only [tempOut, wrap32_eq_bmod, BitVec.toInt_add, BitVec.toInt_mul, toInt_sshiftRight_eq_div]
  rfl

/-- Settles O34: the two stages of CompT. -/
theorem compTIsInt32Arithmetic : Obligations.CompTIsInt32Arithmetic := by
  intro c adc
  have hfine := fineTemp_toInt c adc
  exact ⟨hfine, by rw [← hfine]; exact tempOut_toInt _⟩

/-- The denominator of R92. -/
theorem pressDen_toInt (c : Cal) (tFine : Word) :
    let v := wrap64 (tFine.toInt - 128000)
    let var1 := wrap64 (wrap64 (wrap64 (v * v) * c.p3.toInt) / 2 ^ 8 + wrap64 (wrap64 (v * c.p2.toInt) * 2 ^ 12))
    (pressDen c tFine).toInt = wrap64 (wrap64 (2 ^ 47 + var1) * c.p1.toNat) / 2 ^ 33 := by
  simp only [pressDen, wrap64_eq_bmod, BitVec.toInt_add, BitVec.toInt_sub, BitVec.toInt_mul, toInt_shiftLeft_eq_bmod,
    toInt_sshiftRight_eq_div, toInt_setWidth_of_lt (show 16 < 64 by decide),
    BitVec.toInt_signExtend_of_le (show 16 ≤ 64 by decide), BitVec.toInt_signExtend_of_le (show 32 ≤ 64 by decide)]
  rfl

/-- The offset term of R92. -/
theorem pressOff_toInt (c : Cal) (tFine : Word) :
    let v := wrap64 (tFine.toInt - 128000)
    let var2 := wrap64 (wrap64 (wrap64 (v * v) * c.p6.toInt) + wrap64 (wrap64 (v * c.p5.toInt) * 2 ^ 17))
    (pressOff c tFine).toInt = wrap64 (var2 + wrap64 (c.p4.toInt * 2 ^ 35)) := by
  simp only [pressOff, wrap64_eq_bmod, BitVec.toInt_add, BitVec.toInt_sub, BitVec.toInt_mul, toInt_shiftLeft_eq_bmod,
    BitVec.toInt_signExtend_of_le (show 16 ≤ 64 by decide), BitVec.toInt_signExtend_of_le (show 32 ≤ 64 by decide)]
  rfl

/-- The Q24.8 result of R92, from the denominator and the offset term. -/
theorem pressQ_toInt (c : Cal) (adc tFine : Word) :
    let num := wrap64 (wrap64 (wrap64 (wrap64 (1048576 - adc.toInt) * 2 ^ 31) - (pressOff c tFine).toInt) * 3125)
    let p := wrap64 (num.tdiv (pressDen c tFine).toInt)
    let x := wrap64 (wrap64 (c.p9.toInt * (p / 2 ^ 13)) * (p / 2 ^ 13)) / 2 ^ 25
    let y := wrap64 (c.p8.toInt * p) / 2 ^ 19
    (pressQ c adc tFine).toInt = wrap64 (wrap64 (wrap64 (p + x) + y) / 2 ^ 8 + wrap64 (c.p7.toInt * 2 ^ 4)) := by
  simp only [pressQ, wrap64_eq_bmod, BitVec.toInt_add, BitVec.toInt_sub, BitVec.toInt_mul, toInt_shiftLeft_eq_bmod,
    toInt_sshiftRight_eq_div, BitVec.toInt_sdiv, BitVec.toInt_signExtend_of_le (show 16 ≤ 64 by decide),
    BitVec.toInt_signExtend_of_le (show 32 ≤ 64 by decide)]
  rfl

/-- The zero test and the output of R93 and R94. -/
theorem compP_toInt (c : Cal) (adc tFine : Word) :
    (compP c adc tFine).toInt =
      if (pressDen c tFine).toInt = 0 then 0 else wrap32 ((pressQ c adc tFine).toInt / 2 ^ 8) := by
  have hzero : pressDen c tFine = 0 ↔ (pressDen c tFine).toInt = 0 := by
    rw [← BitVec.toInt_inj]
    rfl
  rw [compP, apply_ite BitVec.toInt, pqToPa, toInt_setWidth32, toInt_sshiftRight_eq_div]
  exact if_congr hzero rfl rfl

/-- Settles O35: the denominator, the offset term and the quotient's stage, then the test and the output. -/
theorem compPIsInt64Arithmetic : Obligations.CompPIsInt64Arithmetic := by
  intro c adc tFine
  rw [compP_toInt, pressQ_toInt, pressOff_toInt, pressDen_toInt]

/-- Settles O37: the denominator is a product with P1, and CompP tests it before anything else. -/
theorem zeroDenominatorGivesZero : Obligations.ZeroDenominatorGivesZero := by
  intro c adc tFine
  refine ⟨fun hp1 => ?_, fun hden => if_pos hden⟩
  simp [pressDen, hp1]

/-- The first stage of R95. -/
theorem humRaw_toInt (c : Cal) (adc tFine : Word) :
    let v := wrap32 (tFine.toInt - 76800)
    let l := wrap32 (wrap32 (wrap32 (wrap32 (adc.toInt * 2 ^ 14) - wrap32 (c.h4.toInt * 2 ^ 20))
      - wrap32 (c.h5.toInt * v)) + 16384) / 2 ^ 15
    let m := wrap32 (wrap32 (v * c.h3.toNat) / 2 ^ 11 + 32768)
    let m := wrap32 (wrap32 (wrap32 (v * c.h6.toInt) / 2 ^ 10 * m) / 2 ^ 10 + 2097152)
    let r := wrap32 (wrap32 (m * c.h2.toInt) + 8192) / 2 ^ 14
    let x := wrap32 (l * r)
    (humRaw c adc tFine).toInt =
      wrap32 (x - wrap32 (wrap32 (x / 2 ^ 15 * (x / 2 ^ 15)) / 2 ^ 7 * c.h1.toNat) / 2 ^ 4) := by
  simp only [humRaw, wrap32_eq_bmod, BitVec.toInt_add, BitVec.toInt_sub, BitVec.toInt_mul, toInt_shiftLeft_eq_bmod,
    toInt_sshiftRight_eq_div, toInt_setWidth_of_lt (show 8 < 32 by decide),
    BitVec.toInt_signExtend_of_le (show 16 ≤ 32 by decide), BitVec.toInt_signExtend_of_le (show 8 ≤ 32 by decide)]
  rfl

/-- The clamp of R96. -/
theorem humClamp_toInt (v : Word) : (humClamp v).toInt = max 0 (min v.toInt 419430400) := by
  have hslt : humMax.slt v = true ↔ 419430400 < v.toInt := by
    rw [BitVec.slt_iff_toInt_lt]
    rfl
  have hneg : v.slt 0 = true ↔ v.toInt < 0 := by
    rw [BitVec.slt_iff_toInt_lt]
    rfl
  rw [humClamp, apply_ite BitVec.toInt, apply_ite BitVec.toInt, if_congr hneg rfl rfl, if_congr hslt rfl rfl,
    show BitVec.toInt 0 = 0 from rfl, show humMax.toInt = 419430400 from rfl]
  split
  · omega
  · split <;> omega

/-- The output stage of R96 is that of the reference, for every value: with the clamp nothing overflows. -/
theorem humOut_toNat (v : Word) : ((humOut v).toNat : Int) = refHumOut v.toInt := by
  have hclamp : refHumOut v.toInt = (humClamp v).toInt / 2 ^ 12 * 100 / 1024 := by rw [humClamp_toInt, refHumOut]
  have hq := toInt_sshiftRight_eq_div (humClamp v) 12
  have hbounds : 0 ≤ (humClamp v).toInt ∧ (humClamp v).toInt ≤ 419430400 := by rw [humClamp_toInt]; omega
  rw [hclamp, ← hq, humOut, BitVec.toNat_udiv, BitVec.toNat_mul]
  generalize (humClamp v).sshiftRight 12 = q at hq
  have hnat : q.toInt = q.toNat := by rw [BitVec.toInt_eq_toNat_cond] at hq ⊢; omega
  have h100 : BitVec.toNat (100 : Word) = 100 := rfl
  have h1024 : BitVec.toNat (1024 : Word) = 1024 := rfl
  rw [hnat, h100, h1024]
  omega

/-- The clamp of R96 written as its two tests. -/
theorem refHumOut_eq_ite (x : Int) :
    refHumOut x = (if x < 0 then 0 else if 419430400 < x then 419430400 else x) / 2 ^ 12 * 100 / 1024 := by
  have hclamp : max 0 (min x 419430400) = if x < 0 then 0 else if 419430400 < x then 419430400 else x := by
    split
    · omega
    · split <;> omega
  rw [refHumOut, hclamp]

/-- Settles O36: the first stage, then the clamp and the output stage. -/
theorem compHIsInt32Arithmetic : Obligations.CompHIsInt32Arithmetic := by
  intro c adc tFine
  simp only [compH, humOut_toNat, refHumOut_eq_ite, humRaw_toInt]

/-- Settles O38: the clamp bounds the output stage's operand, at either end by the bound itself. -/
theorem humidityIsBounded : Obligations.HumidityIsBounded := by
  refine ⟨fun c adc tFine => humOut_le _, fun v hv => ?_, fun v hv => ?_⟩
  · have h : ((humOut v).toNat : Int) = 0 := by rw [humOut_toNat, refHumOut]; omega
    exact BitVec.eq_of_toNat_eq (by exact_mod_cast h)
  · have h : ((humOut v).toNat : Int) = 10000 := by rw [humOut_toNat, refHumOut]; omega
    exact BitVec.eq_of_toNat_eq (by exact_mod_cast h)

/-! ### Agreement with the reference

Where every listed intermediate fits its width, each reduction is the identity, from the innermost outwards (R98). -/

theorem wrap32_of_fits {x : Int} (h : fits32 x = true) : wrap32 x = x := by
  simp only [fits32, Bool.and_eq_true, decide_eq_true_eq] at h
  rw [wrap32]
  omega

theorem wrap64_of_fits {x : Int} (h : fits64 x = true) : wrap64 x = x := by
  simp only [fits64, Bool.and_eq_true, decide_eq_true_eq] at h
  rw [wrap64]
  omega

theorem fineTemp_agrees {c : Cal} {adc : Word} (h : (refFine c adc.toInt).steps.all fits32 = true) :
    (fineTemp c adc).toInt = (refFine c adc.toInt).value := by
  simp only [refFine, List.all_cons, List.all_nil, Bool.and_true, Bool.and_eq_true] at h
  simp only [fineTemp_toInt, refFine, wrap32_of_fits, h]

theorem tempOut_agrees {t : Word} (h : (refTemp t.toInt).steps.all fits32 = true) :
    (tempOut t).toInt = (refTemp t.toInt).value := by
  simp only [refTemp, List.all_cons, List.all_nil, Bool.and_true, Bool.and_eq_true] at h
  simp only [tempOut_toInt, refTemp, wrap32_of_fits, h]

theorem pressDen_agrees {c : Cal} {t : Word} (h : (refPressDen c t.toInt).steps.all fits64 = true) :
    (pressDen c t).toInt = (refPressDen c t.toInt).value := by
  simp only [refPressDen, List.all_cons, List.all_nil, Bool.and_true, Bool.and_eq_true] at h
  simp only [pressDen_toInt, refPressDen, wrap64_of_fits, h]

theorem pressOff_agrees {c : Cal} {t : Word} (h : (refPressOff c t.toInt).steps.all fits64 = true) :
    (pressOff c t).toInt = (refPressOff c t.toInt).value := by
  simp only [refPressOff, List.all_cons, List.all_nil, Bool.and_true, Bool.and_eq_true] at h
  simp only [pressOff_toInt, refPressOff, wrap64_of_fits, h]

theorem pressQ_agrees {c : Cal} {adc t : Word}
    (h : (refPressQ c adc.toInt (pressDen c t).toInt (pressOff c t).toInt).steps.all fits64 = true) :
    (pressQ c adc t).toInt = (refPressQ c adc.toInt (pressDen c t).toInt (pressOff c t).toInt).value := by
  simp only [refPressQ, List.all_cons, List.all_nil, Bool.and_true, Bool.and_eq_true] at h
  simp only [pressQ_toInt, refPressQ, wrap64_of_fits, h]

/-- With a zero denominator both give 0; else the quotient's stage counts too (R93). -/
theorem compP_agrees {c : Cal} {adc t : Word} (h : (refPress c adc.toInt t.toInt).steps.all fits64 = true) :
    (compP c adc t).toInt = (refPress c adc.toInt t.toInt).value := by
  rw [compP_toInt]
  by_cases hzero : (refPressDen c t.toInt).value = 0
  · simp only [refPress, if_pos hzero, List.all_append, Bool.and_eq_true] at h ⊢
    rw [pressDen_agrees h.2, if_pos hzero]
  · simp only [refPress, if_neg hzero, List.all_append, Bool.and_eq_true] at h ⊢
    obtain ⟨⟨hoff, hden⟩, hq⟩ := h
    rw [← pressDen_agrees hden] at hzero hq ⊢
    rw [← pressOff_agrees hoff] at hq ⊢
    rw [if_neg hzero, pressQ_agrees hq]

theorem humRaw_agrees {c : Cal} {adc t : Word} (h : (refHumRaw c adc.toInt t.toInt).steps.all fits32 = true) :
    (humRaw c adc t).toInt = (refHumRaw c adc.toInt t.toInt).value := by
  simp only [refHumRaw, List.all_cons, List.all_nil, Bool.and_true, Bool.and_eq_true] at h
  simp only [humRaw_toInt, refHumRaw, wrap32_of_fits, h]

/-- Settles O39: t_fine agrees, and the other stages agree from the t_fine they are given. -/
theorem agreesWithReference : Obligations.AgreesWithReference := by
  intro c at_ ap ah h
  simp only [noOverflow, Bool.and_eq_true] at h
  obtain ⟨⟨⟨hfine, htemp⟩, hpress⟩, hhum⟩ := h
  rw [← fineTemp_agrees hfine] at htemp hpress hhum ⊢
  refine ⟨rfl, tempOut_agrees htemp, compP_agrees hpress, ?_⟩
  exact (humOut_toNat _).trans (congrArg refHumOut (humRaw_agrees hhum))

end Sys2Proof.Machine
end

section
/-! The measurement duration (43_timing R99-R102): MTIME as three reads and the time of the codes in them, that time written
out, and its growth with the oversampling codes. -/

namespace Sys2Proof.Machine

/-! ### MTIME's run -/

/-- A one-byte read that is answered goes on with its byte. -/
theorem memRead_byte_answered {i : Instr} {p : Pos} {r : Byte} {k : List Byte → State → Result} {s : State} {ack : Bool}
    {b : Byte} {rest : List Input} (hin : s.inputs = .sensor ack [b] :: rest) :
    memRead i p r 1 k s = k [b] (after [.read r 1 [b] none] rest s) :=
  memRead_answered i p r 1 k s hin rfl

/-- A 3-bit field's code is its bits of the byte (R9). -/
theorem code3_eq_extractLsb' {f : Field} (v : Byte) (hw : f.w = 3) : code3 f v = v.extractLsb' f.sh 3 := by
  apply BitVec.eq_of_toNat_eq
  rw [code3, BitVec.toNat_setWidth, toNat_fieldOf v (by omega), hw, Nat.mod_mod, BitVec.extractLsb'_toNat,
    Nat.shiftRight_eq_div_pow]

/-- MTIME from its first transaction reads config (R99). -/
theorem exec_mtime_start {a : Nat} {s : State} (hpos : s.pos = .start) :
    exec (.mtime a) s = memRead (.mtime a) .start 0xF5 1 (fun bs t => mtimeMeasRead a (byteAt bs 0) t) s := by
  simp [exec, execMtime, hpos]

/-- MTIME with its three reads answered finishes with the time of the codes in them (R99). -/
theorem exec_mtime_answered {s : State} {a : Nat} {a1 a2 a3 : Bool} {f5 f4 f2 : Byte} {rest : List Input}
    (hpos : s.pos = .start) (hin : s.inputs = .sensor a1 [f5] :: .sensor a2 [f4] :: .sensor a3 [f2] :: rest) :
    exec (.mtime a) s = .next (finish .ok
      (measTime s.cfg (timingOperand s.cfg a) (f5.extractLsb' 5 3) (f4.extractLsb' 5 3) (f4.extractLsb' 2 3)
        (f2.extractLsb' 0 3)) 0 0
      (after [.read 0xF5 1 [f5] none, .read 0xF4 1 [f4] none, .read 0xF2 1 [f2] none] rest s)) := by
  rw [exec_mtime_start hpos, memRead_byte_answered hin, mtimeMeasRead, memRead_byte_answered (after_inputs ..), mtimeHumRead,
    memRead_byte_answered (after_inputs ..), after_after, after_after]
  rw [code3_eq_extractLsb' (f := tsbField) _ rfl, code3_eq_extractLsb' (f := osrsT) _ rfl,
    code3_eq_extractLsb' (f := osrsP) _ rfl, code3_eq_extractLsb' (f := osrsH) _ rfl]
  rfl

/-- The contribution of a quantity with its multiplier as a table (R37, R100). -/
theorem sampleTime_eq_getD (code : BitVec 3) (perSample overhead : Nat) :
    sampleTime code perSample overhead =
      if [0, 1, 2, 4, 8, 16, 16, 16].getD code.toNat 0 = 0 then 0
      else [0, 1, 2, 4, 8, 16, 16, 16].getD code.toNat 0 * perSample + overhead := by
  rw [sampleTime, osrMult_eq_getD]

/-- Settles O26: the three reads and the finish, with the sum of R100 written out. -/
theorem mtimeComputesDuration : Obligations.MtimeComputesDuration := by
  constructor
  · intro a ha
    exact encode_eq_or_A (i := .mtime a) (op := 11) ha rfl rfl rfl
  · intro s a a1 a2 a3 f5 f4 f2 rest hpos hin
    rw [exec_mtime_answered hpos hin, measTime, measSum, sampleTime_eq_getD, sampleTime_eq_getD, sampleTime_eq_getD]
    exact ⟨_, rfl, finish_finished _ _ _ _ rfl rfl ⟨rfl, rfl, rfl⟩, ⟨rfl, rfl, rfl, rfl, rfl, rfl⟩⟩

/-! ### Monotonicity -/

/-- The multiplier does not decrease with the code: the table of R37 is sorted. -/
theorem osrMult_mono : ∀ {c c' : BitVec 3}, c ≤ c' → osrMult c ≤ osrMult c' := by
  decide

/-- The contribution of a quantity does not decrease with its code: nothing when off, and else growing with the
multiplier. -/
theorem sampleTime_mono {c c' : BitVec 3} (h : c ≤ c') (perSample overhead : Nat) :
    sampleTime c perSample overhead ≤ sampleTime c' perSample overhead := by
  have hmult := osrMult_mono h
  by_cases hoff : osrMult c = 0
  · exact (if_pos hoff).trans_le (Nat.zero_le _)
  · rw [sampleTime, sampleTime, if_neg hoff, if_neg (by omega)]
    exact Nat.add_le_add_right (Nat.mul_le_mul_right _ hmult) _

/-- The sum of R100 does not decrease with the codes (R102). -/
theorem measSum_mono (cfg : Config) (k : TimingSet) (tsb : BitVec 3) {ct ct' cp cp' ch ch' : BitVec 3} (ht : ct ≤ ct')
    (hp : cp ≤ cp') (hh : ch ≤ ch') : measSum cfg k tsb ct cp ch ≤ measSum cfg k tsb ct' cp' ch' :=
  Nat.add_le_add (Nat.add_le_add (Nat.add_le_add_left (sampleTime_mono ht ..) _) (sampleTime_mono hp ..))
    (sampleTime_mono hh ..)

/-- Settles O27: the sum grows with the codes, and below 2^32 neither sum is reduced. -/
theorem durationIsMonotone : Obligations.DurationIsMonotone := by
  intro cfg k tsb ct ct' cp cp' ch ch' ht hp hh hlt
  have hsum := measSum_mono cfg k tsb ht hp hh
  rw [measTime, measTime, BitVec.le_def, BitVec.toNat_ofNat, BitVec.toNat_ofNat, Nat.mod_eq_of_lt hlt,
    Nat.mod_eq_of_lt (hsum.trans_lt hlt)]
  exact hsum

end Sys2Proof.Machine
end

section
/-! RESET (44_reset_cmd R104): the reset write, and then the identity check and the calibration load that BEGIN is. -/

namespace Sys2Proof.Machine

/-- RESET from its first transaction, with the write answered whatever its status, goes on with the identity check, the
write recorded (R104). -/
theorem exec_reset_answered {s : State} {ack : Bool} {ws : List Byte} {rest : List Input} (hpos : s.pos = .start)
    (hin : s.inputs = .sensor ack ws :: rest) :
    exec .reset s =
      identify .reset .identity (record (.write 0xE0 softResetCode) { s with inputs := rest }) := by
  have hstart : exec .reset s =
      memWrite .reset .start 0xE0 softResetCode (fun t => identify .reset .identity t) s := by
    simp [exec, execReset, resumeLoad, hpos]
  exact hstart.trans (memWrite_answered .reset .start 0xE0 softResetCode _ s hin)

/-- Settles O16: after its write RESET is the identity check, which fails with nothing but the write made or goes on to the
calibration load. -/
theorem resetWritesCodeThenBegins : Obligations.ResetWritesCodeThenBegins := by
  refine ⟨by decide, fun s a0 ws hpos => ⟨?_, ?_⟩⟩
  · intro a1 a2 a3 c h1 e rest hc he hin
    rw [exec_reset_answered hpos hin, identify_passes (record_inputs _ _), loadTP_answered hc he (record_inputs _ _)]
    exact ⟨_, rfl, finish_finished _ _ _ _ rfl (by simp [chipId, softResetCode]) ⟨rfl, rfl, rfl⟩, rfl,
      ⟨rfl, rfl, rfl, rfl, rfl, rfl⟩⟩
  · intro ack id rest hbad hin
    rw [exec_reset_answered hpos hin, identify_fails hbad (record_inputs _ _)]
    exact ⟨_, rfl, finish_finished _ _ _ _ rfl (by simp [softResetCode]) ⟨rfl, rfl, rfl⟩, ⟨rfl, rfl, rfl, rfl, rfl, rfl⟩⟩

end Sys2Proof.Machine
end

section
/-! How the CE takes an exception (60_exceptions R106-R115): a word that encodes no command, and a command that fails. -/

namespace Sys2Proof.Machine

/-- A word that RSV or OP makes illegal is rejected by the decoder (R66, R110). -/
theorem decode_rejected_of_illegal {w : Word}
    (h : w.extractLsb' 16 8 ≠ 0#8 ∨ (w.extractLsb' 24 8).toNat = 0 ∨ 13 ≤ (w.extractLsb' 24 8).toNat) :
    ∃ r, decode w = .rejected r :=
  (illegalWordsExactly w).mpr (h.imp_right (by omega))

/-- The host's write of a rejected word to CMD of an IDLE engine raises ILLEGAL in that step, with the word in CMD
(R17, R110). -/
theorem step_of_rejected {s : State} {w : Word} {rest : List Input} {r : Reject} (hseq : s.seq = .idle)
    (hin : s.inputs = .hostWrite s.cfg.hostBase 32 w :: rest) (hdec : decode w = .rejected r) :
    step s = .next (raise .illegal { s with inputs := rest, cmd := w }) := by
  have hacc : hostWrite s.cfg.hostBase 32 w { s with inputs := rest } = accept w { s with inputs := rest } :=
    hostWrite_cmd w hseq
  rw [step_hostWrite hin, hacc]
  simp [accept, hdec]

/-- Settles O10: the decoder rejects the word, so accepting it is raising ILLEGAL, before any transaction. -/
theorem illegalWordIsRaised : Obligations.IllegalWordIsRaised := by
  intro s w rest hseq hin hillegal
  obtain ⟨r, hdec⟩ := decode_rejected_of_illegal hillegal
  exact ⟨_, step_of_rejected hseq hin hdec,
    finish_finished _ _ _ _ rfl (List.append_nil _).symm ⟨rfl, rfl, rfl⟩, ⟨rfl, rfl, rfl, rfl, rfl, rfl⟩⟩

/-- A run that ends IDLE with an outcome other than OK was raised: it commits no engine register, and its results are 0
(R25, R106). -/
theorem Ends.of_failure {i : Instr} {ok : Pos → Prop} {u t : State} (h : Ends i ok u (.next t)) (hidle : t.seq = .idle)
    (hcode : t.code ≠ .ok) : EngineKept u t ∧ t.res0 = 0 ∧ t.res1 = 0 ∧ t.res2 = 0 := by
  cases h with
  | wait p => cases hidle
  | fail c => exact ⟨⟨rfl, rfl, rfl, rfl, rfl, rfl⟩, rfl, rfl, rfl⟩
  | _ => exact absurd rfl hcode

/-- Settles O46: up to its end a run commits nothing, and of all its ends only the raised ones finish with an outcome other
than OK. -/
theorem failuresLeaveEngineRegisters : Obligations.FailuresLeaveEngineRegisters := by
  intro i s t hexec hidle hcode
  obtain ⟨u, hran, hends⟩ := exec_ends i s
  rw [hexec] at hends
  obtain ⟨hengine, hres⟩ := hends.of_failure hidle hcode
  exact ⟨hran.engine.trans hengine, hres⟩

end Sys2Proof.Machine
end

section
/-! Power-on reset, waiting, and READ before BEGIN (70_reset_and_hazards R126, R130). -/

namespace Sys2Proof.Machine

/-! ### The power-on reset, and waiting -/

/-- A step that takes the power-on reset is the reset, whatever was in flight (R126). -/
theorem step_powerOn {s : State} {rest : List Input} (hin : s.inputs = .powerOn :: rest) :
    step s = .next (powerOn { s with inputs := rest }) := by
  simp [step, serve, hin]

/-- Settles O2: the step is the power-on reset, which puts the values of R41 into every field but the model's four. -/
theorem powerOnResetAtAnyTime : Obligations.PowerOnResetAtAnyTime :=
  fun _ _ hin => step_powerOn hin

/-- Settles O52: with no input left a step looks at the sequencer alone, and an IDLE one waits. -/
theorem idleEngineWaits : Obligations.IdleEngineWaits := by
  intro s hseq hin
  simp [step, serve, hin, hseq]

/-! ### The power-on calibration

A few of its zeros decide the reading: T2 and T3 for the temperature, P1 for the pressure (R93), H2 for the humidity. -/

/-- T2 and T3 are factors of the two terms of t_fine (R91). -/
theorem fineTemp_eq_zero {c : Cal} (adc : Word) (ht2 : c.t2 = 0) (ht3 : c.t3 = 0) : fineTemp c adc = 0 := by
  simp [fineTemp, ht2, ht3]

/-- A t_fine of 0 gives T = 0: the rounding constant alone is shifted out (R91). -/
theorem tempOut_zero : tempOut 0 = 0 := by decide

/-- With H2 = 0 one factor of the humidity product is its rounding constant alone, which is shifted out (R95). -/
theorem humRaw_eq_zero {c : Cal} (adc tFine : Word) (hh2 : c.h2 = 0) : humRaw c adc tFine = 0 := by
  simp [humRaw, hh2]

/-- The output stage keeps 0 (R96). -/
theorem humOut_zero : humOut 0 = 0 := by decide

/-- Settles O40: t_fine is 0 and so is its T; P1 = 0 gives a zero denominator, so P = 0; and H is the output stage at 0. -/
theorem zeroCalibrationReadsZero : Obligations.ZeroCalibrationReadsZero := by
  intro adc
  refine ⟨?_, fun tFine => ?_, fun tFine => ?_⟩
  · rw [compT, fineTemp_eq_zero adc rfl rfl, tempOut_zero]
  · obtain ⟨zeroDen, zeroPress⟩ := zeroDenominatorGivesZero Cal.zero adc tFine
    exact zeroPress (zeroDen rfl)
  · rw [compH, humRaw_eq_zero adc tFine rfl, humOut_zero]

end Sys2Proof.Machine
end
